-- ==== Sys2Proof/Word.lean ====
section
/-! DEFINITION. The widths of the core's values (spec 00_scope.md R7, R9, R11): a word is 16 bits, a byte 8, a register
index or sprite height 4, an address field 12. All values are unsigned (R9). -/

namespace Sys2Proof

/-- 8 bits: a V register, a timer, one memory byte, the field `kk` (R7, R71). -/
abbrev Byte := BitVec 8

/-- 16 bits: an instruction word, `I`, `PC`, a stack entry, the key snapshot (R7, R35, R70). -/
abbrev Word := BitVec 16

/-- 4 bits: the fields `op`, `x`, `y`, `n` and a key code (R71, R253). -/
abbrev Nibble := BitVec 4

/-- 12 bits: the field `nnn` (R71). -/
abbrev Addr12 := BitVec 12

end Sys2Proof
end

