-- ==== Sys2Proof/WellFormed.lean ====
section
/-! DEFINITION. Which terms of Instr are instruction values. Every field's range is in its type (R72: every 4-bit value
is a register); the one thing left to check is that UNKNOWN carries a word of the unknown space (R80). The check is
written from R80's table of unknown words, apart from the decoder, so that the two can be held against each other. -/

namespace Sys2Proof

/-- The unknown space, family by family, from the table of 30_encoding.md R80. -/
def unknownSpace (w : Word) : Bool :=
  let n := w.toNat % 16
  let kk := w.toNat % 256
  match w.toNat / 4096 with
  | 0x0 => w.toNat != 0x00E0 && w.toNat != 0x00EE
  | 0x5 => n != 0
  | 0x8 => List.contains [0x8, 0x9, 0xA, 0xB, 0xC, 0xD, 0xF] n
  | 0x9 => n != 0
  | 0xE => !(List.contains [0x9E, 0xA1] kk)
  | 0xF => !(List.contains [0x07, 0x0A, 0x15, 0x18, 0x1E, 0x29, 0x33, 0x55, 0x65] kk)
  | _ => false

/-- R80, R81: an UNKNOWN value carries an unmatched word; every other term is an instruction. -/
def Instr.wellFormed : Instr → Bool
  | .cls => true
  | .ret => true
  | .jp _ => true
  | .call _ => true
  | .seImm _ _ => true
  | .sneImm _ _ => true
  | .seReg _ _ => true
  | .ldImm _ _ => true
  | .addImm _ _ => true
  | .ldReg _ _ => true
  | .or _ _ => true
  | .and _ _ => true
  | .xor _ _ => true
  | .addReg _ _ => true
  | .sub _ _ => true
  | .shr _ _ => true
  | .subn _ _ => true
  | .shl _ _ => true
  | .sneReg _ _ => true
  | .ldI _ => true
  | .jpV0 _ => true
  | .rnd _ _ => true
  | .drw _ _ _ => true
  | .skp _ => true
  | .sknp _ => true
  | .ldVxDt _ => true
  | .ldVxK _ => true
  | .ldDtVx _ => true
  | .ldStVx _ => true
  | .addI _ => true
  | .ldFVx _ => true
  | .ldBVx _ => true
  | .ldMemVx _ => true
  | .ldVxMem _ => true
  | .unknown w => unknownSpace w

end Sys2Proof
end

