-- ==== Sys2Proof/Config.lean ====
section
/-! DEFINITION. The sizes the spec fixes (00_scope.md R7), the two named parameters it leaves to the model with a default
(R8: FONT_BASE, FONT_DATA), and the free values of a step's inputs (R8, R35, R109), which have no body. -/

namespace Sys2Proof.Config

/-- MEM_SIZE: 4096 bytes, addresses 0x000 to 0xFFF (R7, R50). -/
abbrev memSize : Nat := 4096

/-- LOAD_ADDR: where a program is loaded and where PC starts (R7, R270). -/
abbrev loadAddr : Nat := 0x200

/-- MAX_ROM: the longest program that fits above LOAD_ADDR (R7). -/
abbrev maxRom : Nat := 3584

/-- STACK_DEPTH: the call stack's hard limit (R7, R27). -/
abbrev stackDepth : Nat := 16

/-- DISP_W (R7). -/
abbrev dispW : Nat := 64

/-- DISP_H (R7). -/
abbrev dispH : Nat := 32

/-- One byte per pixel, row-major (R30). -/
abbrev dispSize : Nat := 2048

/-- NUM_KEYS: key codes 0 to 15 (R7, R253). -/
abbrev numKeys : Nat := 16

/-- FONT_BASE's default (R8, R188; decision D12). DESIGN CHOICE (log 4): the parameter itself is a field of State's
`env`, so that a statement about every state holds for every FONT_BASE; this is only what State.reset puts there. -/
abbrev fontBaseDefault : Word := 0x000#16

/-- FONT_DATA's default: the conventional 80 glyph bytes of 93_implementation_defined.md section 3 (R8, R188; decision
D13, log 5). The core never writes them; only the host's font installation (R277) uses them. -/
def fontData : List Byte :=
  [0xF0, 0x90, 0x90, 0x90, 0xF0] ++ [0x20, 0x60, 0x20, 0x20, 0x70] ++
  [0xF0, 0x10, 0xF0, 0x80, 0xF0] ++ [0xF0, 0x10, 0xF0, 0x10, 0xF0] ++
  [0x90, 0x90, 0xF0, 0x10, 0x10] ++ [0xF0, 0x80, 0xF0, 0x10, 0xF0] ++
  [0xF0, 0x80, 0xF0, 0x90, 0xF0] ++ [0xF0, 0x10, 0x20, 0x40, 0x40] ++
  [0xF0, 0x90, 0xF0, 0x90, 0xF0] ++ [0xF0, 0x90, 0xF0, 0x10, 0xF0] ++
  [0xF0, 0x90, 0xF0, 0x90, 0x90] ++ [0xE0, 0x90, 0xE0, 0x90, 0xE0] ++
  [0xF0, 0x80, 0x80, 0x80, 0xF0] ++ [0xE0, 0x90, 0x90, 0x90, 0xE0] ++
  [0xF0, 0x80, 0xF0, 0x80, 0xF0] ++ [0xF0, 0x80, 0xF0, 0x80, 0x80]

/-- Free value: the key snapshot of the n-th step, where the host has supplied none (R35, R109; log 2). -/
opaque freeKeys : Nat → Word

/-- Free value: the random byte of the n-th step, where the host has supplied none (R109, R221, D16; log 2). -/
opaque freeRnd : Nat → Byte

/-- Free value: which pressed key the n-th step's LD Vx, K would store, where the host has supplied none (R109, R184,
D14; log 2 and 3). -/
opaque freeKeyChoice : Nat → Nibble

end Sys2Proof.Config
end

