-- ==== Sys2Proof/Machine/State.lean ====
section
/-! DEFINITION. The state of the core, as plain data: the record of 10_state.md R20, field by field, and one more field,
`env`, which is the model's own and holds what the spec makes an input or a parameter of the step rather than core state
(R8, R35, R109). Its reset value (70_reset_and_hazards.md R270 to R273). -/

namespace Sys2Proof.Machine

/-- Bytes by address: addresses strictly rising, no entry equal to what an unlisted address reads as. The operations
are in Machine/Ops.lean. -/
abbrev Memory := List Host.Cell

/-- The display buffer's bytes by index `y * 64 + x` (R30), in the same canonical form as Memory. -/
abbrev Display := List Host.Cell

/-- The `kind` of an out-of-range access (R51). -/
inductive AccessKind where
  | fetch
  | read
  | write
  deriving DecidableEq, Repr

/-- The three fatal errors of 60_exceptions.md R240, with the information R240 records. A step that raises one takes it:
the next state is the one it started from with the error latched in `State.fault` (R104, R243). The machine stops with it
only at the step after that, which R107 makes do nothing but return the latched error (log 1). -/
inductive Fault where
  /-- Code 1, raised by fetch, DRW, Fx33, Fx55, Fx65 and the host's `load` on an access above 0xFFF. Safe: the machine
  stops where the spec says it stops. -/
  | memOob (pc : Word) (addr : Nat) (kind : AccessKind)
  /-- Code 2, raised by CALL with 16 entries on the stack. Safe, for the same reason. -/
  | stackOverflow (pc : Word)
  /-- Code 3, raised by RET on an empty stack. Safe, for the same reason. -/
  | stackUnderflow (pc : Word)
  deriving DecidableEq, Repr

/-- Why an instruction has no meaning in this model. -/
inductive Refusal where
  /-- Raised only by an arm of `exec` that rejects its instruction by name. No arm does: every instruction of the opcode
  table has its meaning. Safe. -/
  | notModelled (mnemonic : String)
  deriving DecidableEq, Repr

/-- The inputs of one step (R109): the key snapshot (bit k is 1 iff key k is pressed), the random byte, and which pressed
key LD Vx, K stores. -/
structure StepInput where
  keys : Word
  rnd : Byte
  keyChoice : Nibble
  deriving DecidableEq, Repr

/-- What a step is given from outside the core. MODEL'S OWN, not part of R20's record (log 2 and 4). -/
structure Env where
  /-- FONT_BASE, the named parameter of R8 and R187. Nothing writes it. -/
  fontBase : Word
  /-- The inputs the host has supplied for the coming steps, the next step's first. -/
  inputs : List StepInput
  /-- How many steps have taken their input: the index of the free values where `inputs` is empty. -/
  stepCount : Nat
  deriving DecidableEq, Repr

/-- The core state, R20, and `env`. -/
structure State where
  /-- V0 to VF (R21); VF is also the flag register (R22). -/
  v : Vector Byte 16
  /-- The index register (R23). -/
  i : Word
  /-- The program counter: the address of the instruction to fetch (R24). -/
  pc : Word
  /-- The delay timer (R25). -/
  dt : Byte
  /-- The sound timer (R26). -/
  st : Byte
  /-- The return addresses, the top entry last; SP is its length (R27). -/
  stack : List Word
  /-- The 4096 bytes of memory (R50). -/
  mem : Memory
  /-- The 64 by 32 display buffer, one byte a pixel (R30). -/
  disp : Display
  /-- The display must be redrawn (R31). -/
  drawFlag : Bool
  /-- The display was cleared (R31). -/
  clearFlag : Bool
  /-- The decoded instruction of the most recent completed step, or NONE (R32). -/
  lastOp : Option Instr
  /-- The latched fatal error, or NONE (R33). -/
  fault : Option Fault
  /-- The step's inputs and the parameter FONT_BASE: the model's own field. -/
  env : Env
  deriving DecidableEq, Repr

/-- Reset (R270 to R274): PC at 0x200; V, I, DT, ST zero, the stack empty, the flags 0, `last_op` and `fault` NONE
(decision D18; log 8); memory and display all zero, so nothing is listed. `env` is the model's own: FONT_BASE at its
default, no input supplied yet (log 2 and 4). -/
def State.reset : State where
  v := Vector.replicate 16 0x00#8
  i := 0x0000#16
  pc := 0x0200#16
  dt := 0x00#8
  st := 0x00#8
  stack := []
  mem := []
  disp := []
  drawFlag := false
  clearFlag := false
  lastOp := none
  fault := none
  env := { fontBase := Config.fontBaseDefault, inputs := [], stepCount := 0 }

end Sys2Proof.Machine
end

