-- ==== Sys2Proof/Machine/Ops.lean ====
section
/-! DEFINITION. The named operations over state: the byte store behind memory and display, range-checked memory access
(20_memory.md), the registers' updates, the call stack (10_state.md R28, R29), the step's inputs (R109), taking a fatal
error (R104, R243) and completing a step (R106). Meanings run on the state the step starts from, so `s.pc` is the
spec's pc0. -/

namespace Sys2Proof.Machine

/-- What an address with no entry reads as: 0, since reset zeroes every byte (R64, R272) and every pixel (R273). -/
def unlistedByte : Byte := 0x00#8

/-- The byte at `a`. -/
def Memory.read : Memory → Nat → Byte
  | [], _ => unlistedByte
  | (k, b) :: rest, a => if k = a then b else Memory.read rest a

/-- Store `b` at `a`, keeping the canonical form: in address order, and no entry where the byte is the unlisted one. -/
def Memory.write : Memory → Nat → Byte → Memory
  | [], a, b => if b = unlistedByte then [] else [(a, b)]
  | (k, c) :: rest, a, b =>
    if k < a then (k, c) :: Memory.write rest a b
    else if k = a then (if b = unlistedByte then rest else (a, b) :: rest)
    else (if b = unlistedByte then (k, c) :: rest else (a, b) :: (k, c) :: rest)

/-- The canonical form of a byte store with addresses below `size`. -/
abbrev Memory.canonical (size : Nat) (m : Memory) : Prop :=
  (m.map Prod.fst).Pairwise (· < ·) ∧ ∀ c ∈ m, c.1 < size ∧ c.2 ≠ unlistedByte

/-- The canonical form of memory: `mem[0..4095]` (R50). -/
abbrev Memory.wf (m : Memory) : Prop := Memory.canonical Config.memSize m

/-- The canonical form of the display: `disp[0..2047]`, every byte 0 or 1 (R30), so every listed one is 1. -/
abbrev Display.wf (d : Display) : Prop := Memory.canonical Config.dispSize d ∧ ∀ c ∈ d, c.2 = 0x01#8

/-- `MemRead(a, 1)` (R52): the address is an unbounded natural, range-checked and never reduced (R51). -/
def memRead (pc : Word) (m : Memory) (a : Nat) : Except Fault Byte :=
  if 0xFFF < a then .error (.memOob pc a .read) else .ok (m.read a)

/-- `MemWrite(a, 1, v)` (R53). -/
def memWrite (pc : Word) (m : Memory) (a : Nat) (b : Byte) : Except Fault Memory :=
  if 0xFFF < a then .error (.memOob pc a .write) else .ok (m.write a b)

/-- `count` bytes from `a` upward, in order, stopping at the first access out of range (R135, R191). -/
def memReadBlock (pc : Word) (m : Memory) (a : Nat) : Nat → Except Fault (List Byte)
  | 0 => .ok []
  | count + 1 =>
    match memRead pc m a with
    | .error e => .error e
    | .ok b =>
      match memReadBlock pc m (a + 1) count with
      | .error e => .error e
      | .ok bs => .ok (b :: bs)

/-- Store bytes from `a` upward, in order, stopping at the first access out of range (R189, R190, R275). -/
def memWriteBlock (pc : Word) (m : Memory) (a : Nat) : List Byte → Except Fault Memory
  | [] => .ok m
  | b :: bs =>
    match memWrite pc m a b with
    | .error e => .error e
    | .ok m' => memWriteBlock pc m' (a + 1) bs

/-- The two bytes of the fetch are range-checked as reads of kind `fetch`, PC first (R101). The bytes are answered in
address order; `joinBytes` makes the big-endian word of them. -/
def fetchBytes (s : State) : Except Fault (Byte × Byte) :=
  if 0xFFF < s.pc.toNat then .error (.memOob s.pc s.pc.toNat .fetch)
  else if 0xFFF < s.pc.toNat + 1 then .error (.memOob s.pc (s.pc.toNat + 1) .fetch)
  else .ok (s.mem.read s.pc.toNat, s.mem.read (s.pc.toNat + 1))

/-! ## Registers -/

/-- `PC <- v`. -/
def State.setPc (s : State) (v : Word) : State := { s with pc := v }

/-- `PC <- (pc0 + 2) mod 2^16`, the default advance (R100, R103). -/
def State.advance (s : State) : State := s.setPc (s.pc + 2#16)

/-- `I <- v`. -/
def State.setI (s : State) (v : Word) : State := { s with i := v }

/-- `DT <- v`. -/
def State.setDt (s : State) (v : Byte) : State := { s with dt := v }

/-- `ST <- v`. -/
def State.setSt (s : State) (v : Byte) : State := { s with st := v }

/-- `V[x]`: all 16 registers are readable and none is hardwired (R21). -/
def State.getV (s : State) (x : Nibble) : Byte := s.v[x.toNat]'(x.isLt)

/-- `V[x] <- v` (R21). -/
def State.setV (s : State) (x : Nibble) (v : Byte) : State := { s with v := s.v.set x.toNat v x.isLt }

/-- The whole of V at once. -/
def State.setRegs (s : State) (v : Vector Byte 16) : State := { s with v := v }

/-- Memory after a step's writes. -/
def State.setMem (s : State) (m : Memory) : State := { s with mem := m }

/-- The display after a step's plots. -/
def State.setDisp (s : State) (d : Display) : State := { s with disp := d }

/-- The call stack. -/
def State.setStack (s : State) (l : List Word) : State := { s with stack := l }

/-- The two render flags. -/
def State.setFlags (s : State) (draw clear : Bool) : State := { s with drawFlag := draw, clearFlag := clear }

/-! ## Call stack -/

/-- `Push(v)` (R28): the value becomes the top entry, and a full stack is fatal. -/
def push (pc : Word) (stack : List Word) (v : Word) : Except Fault (List Word) :=
  if stack.length = Config.stackDepth then .error (.stackOverflow pc) else .ok (stack ++ [v])

/-- `Pop()` (R29): the top entry and the stack without it, and an empty stack is fatal. -/
def pop (pc : Word) (stack : List Word) : Except Fault (Word × List Word) :=
  match stack.getLast? with
  | none => .error (.stackUnderflow pc)
  | some v => .ok (v, stack.dropLast)

/-! ## The step's inputs -/

/-- The inputs of the next step (R109): what the host has supplied, or free values (log 2). -/
def Env.current (e : Env) : StepInput :=
  match e.inputs with
  | inp :: _ => inp
  | [] =>
    { keys := Config.freeKeys e.stepCount
      rnd := Config.freeRnd e.stepCount
      keyChoice := Config.freeKeyChoice e.stepCount }

/-- `keys`, the step's key snapshot (R35, R109). -/
def State.keys (s : State) : Word := s.env.current.keys

/-- `rnd`, the step's random byte (R109). -/
def State.rnd (s : State) : Byte := s.env.current.rnd

/-- `key_choice` (R109). -/
def State.keyChoice (s : State) : Nibble := s.env.current.keyChoice

/-- The step has taken its input: nothing of it is kept (R35, R253). -/
def State.consumeInput (s : State) : State :=
  { s with env := { s.env with inputs := s.env.inputs.tail, stepCount := s.env.stepCount + 1 } }

/-! ## Ending a step -/

/-- Taking a fatal error: the state is the one the step started from, and only the latch changes (R104, R243). -/
def State.takeFatal (s : State) (e : Fault) : State := { s with fault := some e }

/-- The end of a completed step (R100): `last_op <- op` (R106). The render flags (R105) are set by the two instructions
that set them, CLS and DRW; no other step writes them. -/
def State.complete (s : State) (op : Instr) : State := { s with lastOp := some op }

/-- All or nothing (R104): what an instruction's body answers is completed, or the error it raised is taken from the
state the step started from. -/
def settle (s : State) (op : Instr) (body : Except Fault State) : Host.Outcome State Fault Refusal :=
  match body with
  | .ok t => .next (t.complete op)
  | .error e => .next (s.takeFatal e)

/-- `s` with bytes stored from PC upward, where they fit in memory (R51); unchanged where they do not. -/
def State.placeAtPc (s : State) (bytes : List Byte) : State :=
  match memWriteBlock s.pc s.mem s.pc.toNat bytes with
  | .ok m => s.setMem m
  | .error _ => s

/-- Around `exec`: a step that answers a next state has taken its input. -/
def withInputTaken (o : Host.Outcome State Fault Refusal) : Host.Outcome State Fault Refusal :=
  match o with
  | .next t => .next t.consumeInput
  | .fault e => .fault e
  | .refused r => .refused r

end Sys2Proof.Machine
end

