-- ==== Sys2Proof/Machine/Operands.lean ====
section
/-! DEFINITION. The operand forms of the instruction set: the immediates' extensions (30_encoding.md R72), the effective
address of an I-relative access (20_memory.md R51), the glyph address (43_load_store.md R187), the key tests
(42_control_flow.md R159, 43_load_store.md R184), the BCD digits (R189) and the register blocks (R190, R191). -/

namespace Sys2Proof.Machine

/-- VF, the flag register (R22). -/
def vf : Nibble := 0xF#4

/-- V0, the implicit register of Bnnn (R152). -/
def v0 : Nibble := 0x0#4

/-- `zext_16(nnn)` (R72). -/
def zextAddr (nnn : Addr12) : Word := nnn.zeroExtend 16

/-- `zext_16(v)` of a byte. -/
def zextByte (b : Byte) : Word := b.zeroExtend 16

/-- `zext_8(k)` of a key code (R184). -/
def zextKey (k : Nibble) : Byte := k.zeroExtend 8

/-- The effective address `I + 0` of an I-relative access, an unbounded natural (R51); the block operations count up
from it. -/
def baseAddress (s : State) : Nat := s.i.toNat

/-- `FONT_BASE + 5 * V[x][3:0]`, mod 2^16 (R187). -/
def glyphAddress (fontBase : Word) (v : Byte) : Word := fontBase + BitVec.ofNat 16 (5 * (v.toNat % 16))

/-- Is the key with this code pressed: `k ≤ 0xF and keys[k] = 1` (R159). -/
def keyPressed (keys : Word) (k : Byte) : Bool := decide (k.toNat ≤ 0xF) && keys.getLsbD k.toNat

/-- The first pressed key at or after `k`, going round, within `fuel` keys. -/
def pressedFrom (keys : Word) : Nat → Nibble → Nibble
  | 0, k => k
  | fuel + 1, k => if keys.getLsbD k.toNat then k else pressedFrom keys fuel (k + 1#4)

/-- The key LD Vx, K stores: `key_choice`, which R184 lets be any pressed key. A choice that names a pressed key is that
key; one that does not stands for the next pressed key after it, so every pressed key is a choice and only those are
(log 3). -/
def chosenKey (keys : Word) (choice : Nibble) : Nibble := pressedFrom keys 16 choice

/-- Hundreds, tens, units (R189). -/
def bcdDigits (v : Byte) : List Byte :=
  [BitVec.ofNat 8 (v.toNat / 100), BitVec.ofNat 8 (v.toNat / 10 % 10), BitVec.ofNat 8 (v.toNat % 10)]

/-- V0 to Vx, in order (R190). -/
def regBlock (s : State) (x : Nibble) : List Byte := s.v.toList.take (x.toNat + 1)

/-- `V[i] <- bytes[0]`, `V[i+1] <- bytes[1]`, and so on (R191). -/
def loadRegs (v : Vector Byte 16) (i : Nat) : List Byte → Vector Byte 16
  | [] => v
  | b :: bs => loadRegs (if h : i < 16 then v.set i b h else v) (i + 1) bs

end Sys2Proof.Machine
end

