-- ==== Sys2Proof/Machine/Flags.lean ====
section
/-! DEFINITION. The flag computations (10_state.md R22): carry, not-borrow and the shifted-out bit, and the order in which
a flag instruction writes its result and its flag (44_arith_logic.md; 40_execution_cycle.md R110). The collision flag is
computed with the drawing (41_display.md), in Machine/Display.lean. -/

namespace Sys2Proof.Machine

/-- A flag as the byte VF holds: 1 or 0. -/
def flagByte (b : Bool) : Byte := if b then 0x01#8 else 0x00#8

/-- Carry out of bit 7: `a + b > 255` (R212). -/
def carry (a b : Byte) : Bool := decide (255 < a.toNat + b.toNat)

/-- No borrow in `a - b`: `a >= b` (R217, R218; decision D25). -/
def notBorrow (a b : Byte) : Bool := decide (b.toNat ≤ a.toNat)

/-- The bit a right shift by one moves out: `a[0]` (R219). -/
def shiftedOutRight (a : Byte) : Bool := a.getLsbD 0

/-- The bit a left shift by one moves out: `a[7]` (R220). -/
def shiftedOutLeft (a : Byte) : Bool := a.getLsbD 7

/-- A flag instruction writes V[x] first and VF last, so with x = F the flag is what VF ends with (R22, R110; decision
D8). -/
def State.setResultAndFlag (s : State) (x : Nibble) (result : Byte) (flag : Bool) : State :=
  (s.setV x result).setV vf (flagByte flag)

end Sys2Proof.Machine
end

