-- ==== Sys2Proof/Machine/Arith.lean ====
section
/-! DEFINITION. The ADD family, logic, subtraction, shifts and RND (44_arith_logic.md). Operands are read from the state
the step starts from, so before any write (R110). -/

namespace Sys2Proof.Machine

/-- 7xkk ADD Vx, kk (R211): no flag. -/
def execAddImm (x : Nibble) (kk : Byte) (s : State) : Host.Outcome State Fault Refusal :=
  settle s (.addImm x kk) (.ok (s.advance.setV x (s.getV x + kk)))

/-- 8xy4 ADD Vx, Vy (R212): carry into VF. -/
def execAddReg (x y : Nibble) (s : State) : Host.Outcome State Fault Refusal :=
  settle s (.addReg x y)
    (.ok (s.advance.setResultAndFlag x (s.getV x + s.getV y) (carry (s.getV x) (s.getV y))))

/-- Fx1E ADD I, Vx (R213): 16 bits, no 12-bit mask, VF unchanged. -/
def execAddI (x : Nibble) (s : State) : Host.Outcome State Fault Refusal :=
  settle s (.addI x) (.ok (s.advance.setI (s.i + zextByte (s.getV x))))

/-- 8xy1 OR Vx, Vy (R214). -/
def execOr (x y : Nibble) (s : State) : Host.Outcome State Fault Refusal :=
  settle s (.or x y) (.ok (s.advance.setV x (s.getV x ||| s.getV y)))

/-- 8xy2 AND Vx, Vy (R215). -/
def execAnd (x y : Nibble) (s : State) : Host.Outcome State Fault Refusal :=
  settle s (.and x y) (.ok (s.advance.setV x (s.getV x &&& s.getV y)))

/-- 8xy3 XOR Vx, Vy (R216). -/
def execXor (x y : Nibble) (s : State) : Host.Outcome State Fault Refusal :=
  settle s (.xor x y) (.ok (s.advance.setV x (s.getV x ^^^ s.getV y)))

/-- 8xy5 SUB Vx, Vy (R217): Vx - Vy, not-borrow into VF. -/
def execSub (x y : Nibble) (s : State) : Host.Outcome State Fault Refusal :=
  settle s (.sub x y)
    (.ok (s.advance.setResultAndFlag x (s.getV x - s.getV y) (notBorrow (s.getV x) (s.getV y))))

/-- 8xy7 SUBN Vx, Vy (R218): Vy - Vx, not-borrow into VF. -/
def execSubn (x y : Nibble) (s : State) : Host.Outcome State Fault Refusal :=
  settle s (.subn x y)
    (.ok (s.advance.setResultAndFlag x (s.getV y - s.getV x) (notBorrow (s.getV y) (s.getV x))))

/-- 8xy6 SHR Vx (R219): Vx is shifted, Vy is ignored. -/
def execShr (x y : Nibble) (s : State) : Host.Outcome State Fault Refusal :=
  settle s (.shr x y) (.ok (s.advance.setResultAndFlag x (s.getV x >>> 1) (shiftedOutRight (s.getV x))))

/-- 8xyE SHL Vx (R220): Vx is shifted, Vy is ignored. -/
def execShl (x y : Nibble) (s : State) : Host.Outcome State Fault Refusal :=
  settle s (.shl x y) (.ok (s.advance.setResultAndFlag x (s.getV x <<< 1) (shiftedOutLeft (s.getV x))))

/-- Cxkk RND Vx, kk (R221): the step's random byte AND kk. -/
def execRnd (x : Nibble) (kk : Byte) (s : State) : Host.Outcome State Fault Refusal :=
  settle s (.rnd x kk) (.ok (s.advance.setV x (s.rnd &&& kk)))

end Sys2Proof.Machine
end

