-- ==== Sys2Proof/Machine/Control.lean ====
section
/-! DEFINITION. Control transfer and skips (42_control_flow.md), and UNKNOWN (40_execution_cycle.md R108). -/

namespace Sys2Proof.Machine

/-- 00EE RET (R150): PC is the popped value, with nothing added. -/
def execRet (s : State) : Host.Outcome State Fault Refusal :=
  settle s .ret ((pop s.pc s.stack).map fun r => (s.setStack r.2).setPc r.1)

/-- 1nnn JP nnn (R151). -/
def execJp (nnn : Addr12) (s : State) : Host.Outcome State Fault Refusal :=
  settle s (.jp nnn) (.ok (s.setPc (zextAddr nnn)))

/-- Bnnn JP V0, nnn (R152): 16 bits, no 12-bit mask. -/
def execJpV0 (nnn : Addr12) (s : State) : Host.Outcome State Fault Refusal :=
  settle s (.jpV0 nnn) (.ok (s.setPc (zextAddr nnn + zextByte (s.getV v0))))

/-- 2nnn CALL nnn (R153): pushes pc0 + 2, then sets PC. -/
def execCall (nnn : Addr12) (s : State) : Host.Outcome State Fault Refusal :=
  settle s (.call nnn)
    ((push s.pc s.stack s.advance.pc).map fun stack => (s.setStack stack).setPc (zextAddr nnn))

/-- The common skip (R154): 2 more on top of the default advance where the condition holds. -/
def skipIf (cond : Bool) (s : State) : State := if cond then s.advance.advance else s.advance

/-- 3xkk SE Vx, kk (R155). -/
def execSeImm (x : Nibble) (kk : Byte) (s : State) : Host.Outcome State Fault Refusal :=
  settle s (.seImm x kk) (.ok (skipIf (decide (s.getV x = kk)) s))

/-- 4xkk SNE Vx, kk (R156). -/
def execSneImm (x : Nibble) (kk : Byte) (s : State) : Host.Outcome State Fault Refusal :=
  settle s (.sneImm x kk) (.ok (skipIf (decide (s.getV x ≠ kk)) s))

/-- 5xy0 SE Vx, Vy (R157). -/
def execSeReg (x y : Nibble) (s : State) : Host.Outcome State Fault Refusal :=
  settle s (.seReg x y) (.ok (skipIf (decide (s.getV x = s.getV y)) s))

/-- 9xy0 SNE Vx, Vy (R158). -/
def execSneReg (x y : Nibble) (s : State) : Host.Outcome State Fault Refusal :=
  settle s (.sneReg x y) (.ok (skipIf (decide (s.getV x ≠ s.getV y)) s))

/-- Ex9E SKP Vx (R159): a code above 0xF is never pressed. -/
def execSkp (x : Nibble) (s : State) : Host.Outcome State Fault Refusal :=
  settle s (.skp x) (.ok (skipIf (keyPressed s.keys (s.getV x)) s))

/-- ExA1 SKNP Vx (R160). -/
def execSknp (x : Nibble) (s : State) : Host.Outcome State Fault Refusal :=
  settle s (.sknp x) (.ok (skipIf (!keyPressed s.keys (s.getV x)) s))

/-- UNKNOWN(w) (R108): no effect but the default advance; never a stop. -/
def execUnknown (w : Word) (s : State) : Host.Outcome State Fault Refusal :=
  settle s (.unknown w) (.ok s.advance)

end Sys2Proof.Machine
end

