-- ==== Sys2Proof/Machine/Display.lean ====
section
/-! DEFINITION. The display buffer's operations, its read port, and CLS and DRW (41_display.md). -/

namespace Sys2Proof.Machine

/-- The index of pixel (px, py), with wraparound on both axes (R30, R131). -/
def pixelIndex (px py : Nat) : Nat := py % Config.dispH * Config.dispW + px % Config.dispW

/-- `clear()` (R130): every byte 0. -/
def clearDisplay : Display := []

/-- `get_pixel(x, y)` (R136): the same wraparound as drawing. -/
def getPixel (d : Display) (px py : Nat) : Byte := Memory.read d (pixelIndex px py)

/-- `export_display` (R136): all bytes in index order. -/
def exportDisplay (d : Display) : List Byte := (List.range Config.dispSize).map (Memory.read d)

/-- `Plot(px, py, b)` (R131): XOR one bit in; answers whether the pixel went from on to off. -/
def plot (d : Display) (px py : Nat) (b : Bool) : Display × Bool :=
  (Memory.write d (pixelIndex px py) (getPixel d px py ^^^ flagByte b), decide (getPixel d px py = 0x01#8) && b)

/-- One sprite row: the listed columns in order, bit 7 leftmost (R132; decision D20). -/
def plotColumns (d : Display) (x y : Nat) (row : Byte) : List Nat → Display × Bool
  | [] => (d, false)
  | c :: cs =>
    let p := plot d (x + c) y (row.getLsbD (7 - c))
    let q := plotColumns p.1 x y row cs
    (q.1, p.2 || q.2)

/-- `draw_sprite(x, y, rows)` (R132): the rows downward from y; answers whether any pixel went from on to off. -/
def drawSprite (d : Display) (x y : Nat) : List Byte → Display × Bool
  | [] => (d, false)
  | row :: rows =>
    let p := plotColumns d x y row [0, 1, 2, 3, 4, 5, 6, 7]
    let q := drawSprite p.1 x (y + 1) rows
    (q.1, p.2 || q.2)

/-- 00E0 CLS (R134): both render flags become 1 (R105). -/
def execCls (s : State) : Host.Outcome State Fault Refusal :=
  settle s .cls (.ok ((s.advance.setDisp clearDisplay).setFlags true true))

/-- Dxyn DRW Vx, Vy, n (R135): all rows are read before any pixel changes, the coordinates before VF is written;
the draw flag becomes 1 and the clear flag stays (R105). -/
def execDrw (x y n : Nibble) (s : State) : Host.Outcome State Fault Refusal :=
  settle s (.drw x y n)
    ((memReadBlock s.pc s.mem (baseAddress s) n.toNat).map fun rows =>
      ((s.advance.setDisp (drawSprite s.disp (s.getV x).toNat (s.getV y).toNat rows).1).setV vf
        (flagByte (drawSprite s.disp (s.getV x).toNat (s.getV y).toNat rows).2)).setFlags true s.clearFlag)

end Sys2Proof.Machine
end

