-- ==== Sys2Proof/Machine/LoadStore.lean ====
section
/-! DEFINITION. The LD family (43_load_store.md): register and index loads, timers and keys, the font pointer, BCD and the
register blocks. I changes only in Annn and Fx29. -/

namespace Sys2Proof.Machine

/-- 6xkk LD Vx, kk (R180). -/
def execLdImm (x : Nibble) (kk : Byte) (s : State) : Host.Outcome State Fault Refusal :=
  settle s (.ldImm x kk) (.ok (s.advance.setV x kk))

/-- 8xy0 LD Vx, Vy (R181). -/
def execLdReg (x y : Nibble) (s : State) : Host.Outcome State Fault Refusal :=
  settle s (.ldReg x y) (.ok (s.advance.setV x (s.getV y)))

/-- Annn LD I, nnn (R182). -/
def execLdI (nnn : Addr12) (s : State) : Host.Outcome State Fault Refusal :=
  settle s (.ldI nnn) (.ok (s.advance.setI (zextAddr nnn)))

/-- Fx07 LD Vx, DT (R183). -/
def execLdVxDt (x : Nibble) (s : State) : Host.Outcome State Fault Refusal :=
  settle s (.ldVxDt x) (.ok (s.advance.setV x s.dt))

/-- Fx0A LD Vx, K (R184): with no key pressed the step completes with PC still at the instruction (the stall, R111);
else a pressed key's code is stored. -/
def execLdVxK (x : Nibble) (s : State) : Host.Outcome State Fault Refusal :=
  settle s (.ldVxK x)
    (.ok (if s.keys = 0x0000#16 then s else s.advance.setV x (zextKey (chosenKey s.keys s.keyChoice))))

/-- Fx15 LD DT, Vx (R185). -/
def execLdDtVx (x : Nibble) (s : State) : Host.Outcome State Fault Refusal :=
  settle s (.ldDtVx x) (.ok (s.advance.setDt (s.getV x)))

/-- Fx18 LD ST, Vx (R186). -/
def execLdStVx (x : Nibble) (s : State) : Host.Outcome State Fault Refusal :=
  settle s (.ldStVx x) (.ok (s.advance.setSt (s.getV x)))

/-- Fx29 LD F, Vx (R187): I points at the glyph of Vx's low nibble. -/
def execLdFVx (x : Nibble) (s : State) : Host.Outcome State Fault Refusal :=
  settle s (.ldFVx x) (.ok (s.advance.setI (glyphAddress s.env.fontBase (s.getV x))))

/-- Fx33 LD B, Vx (R189): the three digits at I, I + 1, I + 2. -/
def execLdBVx (x : Nibble) (s : State) : Host.Outcome State Fault Refusal :=
  settle s (.ldBVx x)
    ((memWriteBlock s.pc s.mem (baseAddress s) (bcdDigits (s.getV x))).map s.advance.setMem)

/-- Fx55 LD [I], Vx (R190): V0 to Vx at I upward; I unchanged. -/
def execLdMemVx (x : Nibble) (s : State) : Host.Outcome State Fault Refusal :=
  settle s (.ldMemVx x)
    ((memWriteBlock s.pc s.mem (baseAddress s) (regBlock s x)).map s.advance.setMem)

/-- Fx65 LD Vx, [I] (R191): V0 to Vx from I upward; I unchanged. -/
def execLdVxMem (x : Nibble) (s : State) : Host.Outcome State Fault Refusal :=
  settle s (.ldVxMem x)
    ((memReadBlock s.pc s.mem (baseAddress s) (x.toNat + 1)).map
      fun bytes => s.advance.setRegs (loadRegs s.v 0 bytes))

end Sys2Proof.Machine
end

