-- ==== Sys2Proof/Machine/Step.lean ====
section
/-! DEFINITION. One step (40_execution_cycle.md R100), and how an instruction is placed where the next step fetches it. -/

namespace Sys2Proof.Machine

/-- `step` (R100): a latched fault is returned and nothing else happens (R107); else fetch (R101), decode (R102) and
execute. A fetch that raises is taken like any fatal error (R104). -/
def step (s : State) : Host.Outcome State Fault Refusal :=
  match s.fault with
  | some e => .fault e
  | none =>
    match fetchBytes s with
    | .error e => withInputTaken (.next (s.takeFatal e))
    | .ok (hi, lo) => withInputTaken (exec (decode (joinBytes hi lo)) s)

/-- `s` with an instruction's word stored at PC, high byte first (R55). It stands for the host's load of a program (R275;
log 9). -/
def State.withFetchWord (s : State) (_nbits w : Nat) : State :=
  s.placeAtPc [highByte (BitVec.ofNat 16 w), lowByte (BitVec.ofNat 16 w)]

end Sys2Proof.Machine
end

