-- ==== Sys2Proof/Machine/HostInterface.lean ====
section
/-! DEFINITION. The operations through which the host drives the core, each one indivisible transaction (10_state.md R36,
R37): step with its inputs, tick, reset_flags, reset, load, the font installation of the boot sequence, and the reads. A
run of the core is a schedule: any sequence of them (R37, R280). -/

namespace Sys2Proof.Machine

/-- The operations of R36's table, in its order, and the host's font installation (R277; log 10). R257 lets the host read
every state field through R36's interface, whose table has no read of V, I, PC, the stack, DT or ST: DESIGN CHOICE (log
48), none is added, and the host reads those from the State that `HostOp.apply` returns. -/
inductive HostOp where
  | step (input : StepInput)
  | tick
  | resetFlags
  | reset
  | load (bytes : List Byte)
  | installFont (glyphs : List Byte)
  | shouldDraw
  | shouldClear
  | getPixel (x y : Nat)
  | exportDisplay
  | soundOn
  | lastOp
  | fault
  | readMem (a : Nat)
  deriving DecidableEq, Repr

/-- What an operation answers the host (R36). -/
inductive HostResult where
  | none
  | ok
  | fatal (e : Fault)
  /-- Never answered: no step refuses (R247: there is no abort outcome). -/
  | refused (r : Refusal)
  | bit (b : Bool)
  | byte (b : Byte)
  | bytes (l : List Byte)
  | lastOp (op : Option Instr)
  | fault (e : Option Fault)
  deriving DecidableEq, Repr

/-- The numeric code of a fatal error (R240; decision D6). -/
def Fault.code : Fault → Nat
  | .memOob _ _ _ => 1
  | .stackOverflow _ => 2
  | .stackUnderflow _ => 3

/-- The `pc` of a fatal error's information (R240). -/
def Fault.pc : Fault → Word
  | .memOob pc _ _ => pc
  | .stackOverflow pc => pc
  | .stackUnderflow pc => pc

/-- What the host supplies for the next step, put in front of what it has supplied already. -/
def State.offer (s : State) (input : StepInput) : State :=
  { s with env := { s.env with inputs := input :: s.env.inputs } }

/-- The result of a step that answered a next state: Ok, or the error it latched (R100, R241). -/
def stepResult (t : State) : HostResult :=
  match t.fault with
  | none => .ok
  | some e => .fatal e

/-- `step(keys, rnd, key_choice)` as the host sees it (R36, R100): the state after it and its result. -/
def hostStep (input : StepInput) (s : State) : State × HostResult :=
  match step (s.offer input) with
  | .next t => (t, stepResult t)
  | .fault e => (s, .fatal e)
  | .refused r => (s, .refused r)

/-- A timer's next value: one less, floored at 0 (R112). -/
def tickTimer (t : Byte) : Byte := if t = 0x00#8 then t else t - 1#8

/-- `tick()` (R112, R113): both timers, whatever else holds, and nothing else. -/
def tick (s : State) : State := (s.setDt (tickTimer s.dt)).setSt (tickTimer s.st)

/-- `reset_flags()` (R114). -/
def resetFlags (s : State) : State := s.setFlags false false

/-- `reset()` (R274): every field of the core at its reset value, in any state. What is outside the core, `env`, stays:
FONT_BASE is a parameter, and inputs after a reset are as fresh as before it. -/
def hostReset (s : State) : State := { State.reset with env := s.env }

/-- The host's writes through the memory interface, all or nothing (R54, R275; decision D27). -/
def hostWrite (s : State) (a : Nat) (bytes : List Byte) : State × HostResult :=
  match memWriteBlock s.pc s.mem a bytes with
  | .ok m => (s.setMem m, .ok)
  | .error e => (s, .fatal e)

/-- `load(bytes)` (R275): verbatim from 0x200; a program that does not fit is refused whole, and the error is not
latched. -/
def load (bytes : List Byte) (s : State) : State × HostResult := hostWrite s Config.loadAddr bytes

/-- The boot step that writes glyphs at FONT_BASE (R277; decision D13). Config.fontData is the conventional table. -/
def installFont (glyphs : List Byte) (s : State) : State × HostResult := hostWrite s s.env.fontBase.toNat glyphs

/-- `sound_on`: the sound timer is nonzero (R255). -/
def soundOn (s : State) : Bool := decide (s.st ≠ 0x00#8)

/-- `read_mem(a)` (R36; decision D34): a memory read between steps that latches nothing. -/
def readMem (a : Nat) (s : State) : HostResult :=
  match memRead s.pc s.mem a with
  | .ok b => .byte b
  | .error e => .fatal e

/-- One host operation: the state after it and its result (R36). -/
def HostOp.apply (op : HostOp) (s : State) : State × HostResult :=
  match op with
  | .step input => hostStep input s
  | .tick => (Sys2Proof.Machine.tick s, .none)
  | .resetFlags => (Sys2Proof.Machine.resetFlags s, .none)
  | .reset => (hostReset s, .none)
  | .load bytes => Sys2Proof.Machine.load bytes s
  | .installFont glyphs => Sys2Proof.Machine.installFont glyphs s
  | .shouldDraw => (s, .bit s.drawFlag)
  | .shouldClear => (s, .bit s.clearFlag)
  | .getPixel x y => (s, .byte (Sys2Proof.Machine.getPixel s.disp x y))
  | .exportDisplay => (s, .bytes (Sys2Proof.Machine.exportDisplay s.disp))
  | .soundOn => (s, .bit (Sys2Proof.Machine.soundOn s))
  | .lastOp => (s, .lastOp s.lastOp)
  | .fault => (s, .fault s.fault)
  | .readMem a => (s, Sys2Proof.Machine.readMem a s)

/-- A run: the operations of a schedule one after another (R37). -/
def runSchedule : List HostOp → State → State
  | [], s => s
  | op :: ops, s => runSchedule ops (op.apply s).1

end Sys2Proof.Machine
end

