-- ==== Sys2Proof/Safety.lean ====
section
/-! DEFINITION. The terms claims about runs use: the fields of State and what it is for one to be unchanged, what each
instruction may write (10_state.md R38), the invariant every operation keeps, and how a run ends
(70_reset_and_hazards.md R281). -/

namespace Sys2Proof.Machine

/-- The fields of State. -/
inductive Field where
  | v
  | i
  | pc
  | dt
  | st
  | stack
  | mem
  | disp
  | drawFlag
  | clearFlag
  | lastOp
  | fault
  | env
  deriving DecidableEq, Repr

/-- A field reads the same in both states: memory at every address, the display at every index. -/
def Field.same (f : Field) (s t : State) : Prop :=
  match f with
  | .v => t.v = s.v
  | .i => t.i = s.i
  | .pc => t.pc = s.pc
  | .dt => t.dt = s.dt
  | .st => t.st = s.st
  | .stack => t.stack = s.stack
  | .mem => ∀ a, t.mem.read a = s.mem.read a
  | .disp => ∀ p, Memory.read t.disp p = Memory.read s.disp p
  | .drawFlag => t.drawFlag = s.drawFlag
  | .clearFlag => t.clearFlag = s.clearFlag
  | .lastOp => t.lastOp = s.lastOp
  | .fault => t.fault = s.fault
  | .env => t.env = s.env

/-- Every field but the listed ones is unchanged. -/
def unchangedExcept (changed : List Field) (s t : State) : Prop := ∀ f, f ∉ changed → f.same s t

/-- The fields each instruction's completed step writes, besides `last_op` (R106): the table of R38 read by rows, with
the render flags of R105. -/
def writes : Instr → List Field
  | .cls => [.pc, .disp, .drawFlag, .clearFlag]
  | .ret => [.pc, .stack]
  | .jp _ => [.pc]
  | .call _ => [.pc, .stack]
  | .seImm _ _ => [.pc]
  | .sneImm _ _ => [.pc]
  | .seReg _ _ => [.pc]
  | .ldImm _ _ => [.pc, .v]
  | .addImm _ _ => [.pc, .v]
  | .ldReg _ _ => [.pc, .v]
  | .or _ _ => [.pc, .v]
  | .and _ _ => [.pc, .v]
  | .xor _ _ => [.pc, .v]
  | .addReg _ _ => [.pc, .v]
  | .sub _ _ => [.pc, .v]
  | .shr _ _ => [.pc, .v]
  | .subn _ _ => [.pc, .v]
  | .shl _ _ => [.pc, .v]
  | .sneReg _ _ => [.pc]
  | .ldI _ => [.pc, .i]
  | .jpV0 _ => [.pc]
  | .rnd _ _ => [.pc, .v]
  | .drw _ _ _ => [.pc, .v, .disp, .drawFlag]
  | .skp _ => [.pc]
  | .sknp _ => [.pc]
  | .ldVxDt _ => [.pc, .v]
  | .ldVxK _ => [.pc, .v]
  | .ldDtVx _ => [.pc, .dt]
  | .ldStVx _ => [.pc, .st]
  | .addI _ => [.pc, .i]
  | .ldFVx _ => [.pc, .i]
  | .ldBVx _ => [.pc, .mem]
  | .ldMemVx _ => [.pc, .mem]
  | .ldVxMem _ => [.pc, .v]
  | .unknown _ => [.pc]

/-- The registers an instruction names as its destination, VF for the flag instructions and DRW, and V0 to Vx for
Fx65 (R22, R38). -/
def mayWriteReg (i : Instr) (r : Nibble) : Bool :=
  match i with
  | .cls => false
  | .ret => false
  | .jp _ => false
  | .call _ => false
  | .seImm _ _ => false
  | .sneImm _ _ => false
  | .seReg _ _ => false
  | .ldImm x _ => decide (r = x)
  | .addImm x _ => decide (r = x)
  | .ldReg x _ => decide (r = x)
  | .or x _ => decide (r = x)
  | .and x _ => decide (r = x)
  | .xor x _ => decide (r = x)
  | .addReg x _ => decide (r = x) || decide (r = vf)
  | .sub x _ => decide (r = x) || decide (r = vf)
  | .shr x _ => decide (r = x) || decide (r = vf)
  | .subn x _ => decide (r = x) || decide (r = vf)
  | .shl x _ => decide (r = x) || decide (r = vf)
  | .sneReg _ _ => false
  | .ldI _ => false
  | .jpV0 _ => false
  | .rnd x _ => decide (r = x)
  | .drw _ _ _ => decide (r = vf)
  | .skp _ => false
  | .sknp _ => false
  | .ldVxDt x => decide (r = x)
  | .ldVxK x => decide (r = x)
  | .ldDtVx _ => false
  | .ldStVx _ => false
  | .addI _ => false
  | .ldFVx _ => false
  | .ldBVx _ => false
  | .ldMemVx _ => false
  | .ldVxMem x => decide (r.toNat ≤ x.toNat)
  | .unknown _ => false

/-- The match and mask of each instruction's row of spec/opcode_table.json; UNKNOWN's row matches every word. -/
def matchMask : Instr → Word × Word
  | .cls => (0x00E0#16, 0xFFFF#16)
  | .ret => (0x00EE#16, 0xFFFF#16)
  | .jp _ => (0x1000#16, 0xF000#16)
  | .call _ => (0x2000#16, 0xF000#16)
  | .seImm _ _ => (0x3000#16, 0xF000#16)
  | .sneImm _ _ => (0x4000#16, 0xF000#16)
  | .seReg _ _ => (0x5000#16, 0xF00F#16)
  | .ldImm _ _ => (0x6000#16, 0xF000#16)
  | .addImm _ _ => (0x7000#16, 0xF000#16)
  | .ldReg _ _ => (0x8000#16, 0xF00F#16)
  | .or _ _ => (0x8001#16, 0xF00F#16)
  | .and _ _ => (0x8002#16, 0xF00F#16)
  | .xor _ _ => (0x8003#16, 0xF00F#16)
  | .addReg _ _ => (0x8004#16, 0xF00F#16)
  | .sub _ _ => (0x8005#16, 0xF00F#16)
  | .shr _ _ => (0x8006#16, 0xF00F#16)
  | .subn _ _ => (0x8007#16, 0xF00F#16)
  | .shl _ _ => (0x800E#16, 0xF00F#16)
  | .sneReg _ _ => (0x9000#16, 0xF00F#16)
  | .ldI _ => (0xA000#16, 0xF000#16)
  | .jpV0 _ => (0xB000#16, 0xF000#16)
  | .rnd _ _ => (0xC000#16, 0xF000#16)
  | .drw _ _ _ => (0xD000#16, 0xF000#16)
  | .skp _ => (0xE09E#16, 0xF0FF#16)
  | .sknp _ => (0xE0A1#16, 0xF0FF#16)
  | .ldVxDt _ => (0xF007#16, 0xF0FF#16)
  | .ldVxK _ => (0xF00A#16, 0xF0FF#16)
  | .ldDtVx _ => (0xF015#16, 0xF0FF#16)
  | .ldStVx _ => (0xF018#16, 0xF0FF#16)
  | .addI _ => (0xF01E#16, 0xF0FF#16)
  | .ldFVx _ => (0xF029#16, 0xF0FF#16)
  | .ldBVx _ => (0xF033#16, 0xF0FF#16)
  | .ldMemVx _ => (0xF055#16, 0xF0FF#16)
  | .ldVxMem _ => (0xF065#16, 0xF0FF#16)
  | .unknown _ => (0x0000#16, 0x0000#16)

/-- The error of `n` accesses at I, I + 1, …: the lowest offending address is reported (R51, R244). -/
def outOfRange (s : State) (n : Nat) (kind : AccessKind) : Option Fault :=
  ((List.range n).find? fun k => decide (0xFFF < s.i.toNat + k)).map fun k => .memOob s.pc (s.i.toNat + k) kind

/-- The error an instruction's own condition raises, if any (R240's "raised by" column; R244). -/
def raisedBy (i : Instr) (s : State) : Option Fault :=
  match i with
  | .cls => none
  | .ret => if s.stack = [] then some (.stackUnderflow s.pc) else none
  | .jp _ => none
  | .call _ => if s.stack.length = Config.stackDepth then some (.stackOverflow s.pc) else none
  | .seImm _ _ => none
  | .sneImm _ _ => none
  | .seReg _ _ => none
  | .ldImm _ _ => none
  | .addImm _ _ => none
  | .ldReg _ _ => none
  | .or _ _ => none
  | .and _ _ => none
  | .xor _ _ => none
  | .addReg _ _ => none
  | .sub _ _ => none
  | .shr _ _ => none
  | .subn _ _ => none
  | .shl _ _ => none
  | .sneReg _ _ => none
  | .ldI _ => none
  | .jpV0 _ => none
  | .rnd _ _ => none
  | .drw _ _ n => outOfRange s n.toNat .read
  | .skp _ => none
  | .sknp _ => none
  | .ldVxDt _ => none
  | .ldVxK _ => none
  | .ldDtVx _ => none
  | .ldStVx _ => none
  | .addI _ => none
  | .ldFVx _ => none
  | .ldBVx _ => outOfRange s 3 .write
  | .ldMemVx x => outOfRange s (x.toNat + 1) .write
  | .ldVxMem x => outOfRange s (x.toNat + 1) .read
  | .unknown _ => none

/-- The error the next step raises, if any: the fetch at PC first, then at PC + 1, then the instruction's condition
(R244). -/
def expectedFault (s : State) : Option Fault :=
  if 0xFFF < s.pc.toNat then some (.memOob s.pc s.pc.toNat .fetch)
  else if 0xFFF < s.pc.toNat + 1 then some (.memOob s.pc (s.pc.toNat + 1) .fetch)
  else raisedBy (decode (joinBytes (s.mem.read s.pc.toNat) (s.mem.read (s.pc.toNat + 1)))) s

/-- The instruction completes: `exec` answers a next state with the instruction recorded (R106) and every field but the
listed ones unchanged, the fault latch among them, and `P` holds of it. -/
def completesWith (i : Instr) (s : State) (changed : List Field) (P : State → Prop) : Prop :=
  ∃ t, exec i s = .next t ∧ t.lastOp = some i ∧ unchangedExcept (.lastOp :: changed) s t ∧ P t

/-- The instruction raises `e`: the next state has it latched and nothing else changed (R104, R243; that the raising step
answers a next state is the model's choice, log 1). -/
def raises (i : Instr) (s : State) (e : Fault) : Prop :=
  ∃ t, exec i s = .next t ∧ t.fault = some e ∧ unchangedExcept [.fault] s t

/-- Every register but `x` is unchanged. -/
def regsUnchangedExcept (x : Nibble) (s t : State) : Prop := ∀ r, r ≠ x → t.getV r = s.getV r

/-- The sprite DRW Vx, Vy, n draws from state `s` has a 1 bit on pixel (px, py): row r is `mem[I + r]`, bit 7 leftmost,
wrapping on both axes (R131, R132, R135). -/
def spriteCovers (s : State) (x y n : Nibble) (px py : Nat) : Prop :=
  ∃ r c, r < n.toNat ∧ c < 8 ∧ ((s.getV x).toNat + c) % 64 = px ∧ ((s.getV y).toNat + r) % 32 = py ∧
    (s.mem.read (s.i.toNat + r)).getLsbD (7 - c) = true

/-- What a latched fault says of the state it is latched in: it names the PC, which has not moved since, and the condition
that raised it still holds (R240, R245). -/
def faultPrecise (s : State) : Prop :=
  match s.fault with
  | none => True
  | some (.memOob pc addr _) => pc = s.pc ∧ 0xFFF < addr
  | some (.stackOverflow pc) => pc = s.pc ∧ s.stack.length = Config.stackDepth
  | some (.stackUnderflow pc) => pc = s.pc ∧ s.stack = []

/-- The recorded instruction is a value of R81: an UNKNOWN carries an unmatched word. -/
def lastOpWellFormed (s : State) : Prop := ∀ op, s.lastOp = some op → op.wellFormed = true

/-- What holds at reset and is kept by every operation. -/
structure State.Inv (s : State) : Prop where
  /-- Memory is canonical: only addresses below 4096, so equal memories are equal data (R50). -/
  mem : s.mem.wf
  /-- The display is canonical and every pixel is 0 or 1 (R30). -/
  disp : Display.wf s.disp
  /-- The stack holds at most 16 entries (R27). -/
  stack : s.stack.length ≤ Config.stackDepth
  /-- Every return address was pushed by a CALL that was fetched, so it is at most 0x1000 (R24). -/
  returns : ∀ r ∈ s.stack, r.toNat ≤ 0x1000
  /-- PC never exceeds what Bnnn can set, so it never wraps at 2^16 (R24). -/
  pc : s.pc.toNat ≤ 0x10FE
  /-- A latched fault is precise (R245). -/
  fault : faultPrecise s
  /-- The diagnostic record is an instruction value (R32). -/
  lastOp : lastOpWellFormed s

/-- The next step fetches and executes the word `w`. -/
def fetches (s : State) (w : Word) : Prop :=
  s.fault = none ∧ s.pc.toNat + 1 ≤ 0xFFF ∧
    joinBytes (s.mem.read s.pc.toNat) (s.mem.read (s.pc.toNat + 1)) = w

/-- A run's end by a self-loop: the instruction at PC is `1nnn` with nnn = PC (R281). -/
def selfLoop (s : State) : Prop := ∃ nnn, fetches s (encode (.jp nnn)) ∧ zextAddr nnn = s.pc

/-- A run's end by a fault: a step returned `Fatal`, and the latch holds it (R281). -/
def faulted (s : State) : Prop := s.fault ≠ none

end Sys2Proof.Machine
end

