-- ==== Sys2Proof/Certificates/Slice0/Obligations.lean ====
section
/-! DEFINITION. The statements for the provers, in the order of the spec's files: decoding, the step, memory, reset and
the invariant, fatal errors, what any instruction may touch, each instruction's effect and frame, and the host's
operations. Each docstring cites what it formalises. A clause that rests on a decision the spec marks as its own (D<n> of
92_eei_decisions.md) says so; the log entries are those of notes/assumptions. -/

section
open Sys2Proof Sys2Proof.Machine

/-! ## Decoding (30_encoding.md) -/

/-- Decoding an encoded well-formed instruction gives it back, whatever its operands (R81; UNKNOWN's words follow decision
D17). -/
def Obligations.DecodeAfterEncode : Prop :=
  ∀ i : Instr, i.wellFormed = true → decode (encode i) = i

/-- Every word decodes to a well-formed instruction that encodes to that word, so each word is exactly one instruction
(R73, R82; decision D17). -/
def Obligations.EncodeAfterDecode : Prop :=
  ∀ w : Word, (decode w).wellFormed = true ∧ encode (decode w) = w

/-- A word decodes to UNKNOWN, carrying the word, exactly when it is in R80's table of unknown words (decision D17). -/
def Obligations.UnknownIsTheUnknownSpace : Prop :=
  ∀ w : Word, (unknownSpace w = true → decode w = .unknown w) ∧
    (unknownSpace w = false → ∀ u, decode w ≠ .unknown u)

/-- The decoder agrees with the match and mask of every row of opcode_table.json: a word matches its own instruction's
row, and an instruction other than UNKNOWN whose row it matches has that same row (R73 to R79; decision D17). -/
def Obligations.DecodeAgreesWithOpcodeTable : Prop :=
  ∀ w : Word, w &&& (matchMask (decode w)).2 = (matchMask (decode w)).1 ∧
    ∀ i : Instr, (∀ u, i ≠ .unknown u) → w &&& (matchMask i).2 = (matchMask i).1 →
      matchMask i = matchMask (decode w)

/-- Words written out from the patterns of R74 to R79 decode to the instructions they stand for. -/
def Obligations.SampleWordsDecode : Prop :=
  decode 0x00E0#16 = .cls ∧ decode 0x1ABC#16 = .jp 0xABC#12 ∧ decode 0x332A#16 = .seImm 0x3#4 0x2A#8 ∧
  decode 0x8124#16 = .addReg 0x1#4 0x2#4 ∧ decode 0x812E#16 = .shl 0x1#4 0x2#4 ∧
  decode 0xD01F#16 = .drw 0x0#4 0x1#4 0xF#4 ∧ decode 0xE59E#16 = .skp 0x5#4 ∧ decode 0xF733#16 = .ldBVx 0x7#4 ∧
  decode 0x5121#16 = .unknown 0x5121#16 ∧ decode 0xFFFF#16 = .unknown 0xFFFF#16

/-! ## The step (40_execution_cycle.md) -/

/-- A step runs the decoded instruction: where the two bytes at PC are those of a well-formed instruction and no fault is
latched, the step is `exec` of it, and around `exec` the step does one thing, taking its input: the head of the supplied
inputs is gone and the count of steps is one more (R55, R70, R100, R109; log 2). -/
def Obligations.StepRunsTheDecodedInstruction : Prop :=
  ∀ (s t : State) (i : Instr), i.wellFormed = true → fetches s (encode i) → exec i s = .next t →
    ∃ u, step s = .next u ∧ unchangedExcept [.env] t u ∧ u.env.fontBase = t.env.fontBase ∧
      u.env.inputs = t.env.inputs.tail ∧ u.env.stepCount = t.env.stepCount + 1

/-- The fetch: PC is range-checked first, then PC + 1, and the word is big-endian (R101). -/
def Obligations.FetchChecksBothBytes : Prop :=
  ∀ s : State,
    (0xFFF < s.pc.toNat → fetchBytes s = .error (.memOob s.pc s.pc.toNat .fetch)) ∧
    (s.pc.toNat = 0xFFF → fetchBytes s = .error (.memOob s.pc 0x1000 .fetch)) ∧
    (s.pc.toNat + 1 ≤ 0xFFF → ∃ hi lo, fetchBytes s = .ok (hi, lo) ∧ joinBytes hi lo =
      BitVec.ofNat 16 ((s.mem.read s.pc.toNat).toNat * 256 + (s.mem.read (s.pc.toNat + 1)).toNat))

/-- While a fault is latched every step returns it and changes nothing, whatever the inputs (R107: decision D5; log 1). -/
def Obligations.LatchedFaultStopsEveryStep : Prop :=
  ∀ (s : State) (e : Fault), s.fault = some e →
    step s = .fault e ∧ ∀ input, hostStep input s = (s, .fatal e)

/-- The host's step runs the instruction on the inputs the host supplies with it, consumes exactly those, and answers Ok
or the latched error (R36, R100, R109; log 1 and 2). -/
def Obligations.HostStepUsesItsInputs : Prop :=
  ∀ (s : State) (input : StepInput) (i : Instr), i.wellFormed = true → fetches s (encode i) →
    (s.offer input).keys = input.keys ∧ (s.offer input).rnd = input.rnd ∧
    (s.offer input).keyChoice = input.keyChoice ∧
    ∃ t u, exec i (s.offer input) = .next t ∧ hostStep input s = (u, stepResult t) ∧
      unchangedExcept [.env] t u ∧ u.env.inputs = s.env.inputs

/-- The word placed by withFetchWord is the one the next step runs, and only memory's two bytes at PC changed (R55; log
9). -/
def Obligations.PlacedWordRunsNext : Prop :=
  ∀ (s : State) (nbits w : Nat), s.mem.wf → s.fault = none → s.pc.toNat + 1 ≤ 0xFFF →
    step (s.withFetchWord nbits w) =
      withInputTaken (exec (decode (BitVec.ofNat 16 w)) (s.withFetchWord nbits w)) ∧
    unchangedExcept [.mem] s (s.withFetchWord nbits w) ∧
    ∀ a, a ≠ s.pc.toNat → a ≠ s.pc.toNat + 1 → (s.withFetchWord nbits w).mem.read a = s.mem.read a

/-! ## Memory (20_memory.md) -/

/-- A write within 0x000 to 0xFFF reads back and leaves every other address alone; a write above is an error (R53), and so
is a read (R52). That the memory stays canonical is the model's choice (log 6). -/
def Obligations.MemoryReadsBackWhatIsWritten : Prop :=
  ∀ (pc : Word) (m : Memory) (a : Nat) (b : Byte), m.wf →
    (a ≤ 0xFFF → ∃ m', memWrite pc m a b = .ok m' ∧ memRead pc m' a = .ok b ∧ m'.wf ∧
      ∀ c, c ≠ a → m'.read c = m.read c) ∧
    (0xFFF < a → memWrite pc m a b = .error (.memOob pc a .write) ∧
      memRead pc m a = .error (.memOob pc a .read))

/-- The canonical form: memories that read the same at every address are the same data (log 6). -/
def Obligations.EqualReadsAreEqualMemories : Prop :=
  ∀ m m' : Memory, m.wf → m'.wf → (∀ a, m.read a = m'.read a) → m = m'

/-- A store into the next instruction's bytes is seen by its fetch: after Fx55 over PC + 2 with x at least 1, the next
step fetches the word made of V0 and V1 (R55, R63: decision D29; Fx55's block is decision D10). -/
def Obligations.StoreIsSeenByTheNextFetch : Prop :=
  ∀ (s t : State) (x : Nibble), s.mem.wf → s.fault = none → 1 ≤ x.toNat → s.i.toNat + x.toNat ≤ 0xFFF →
    s.i.toNat = s.pc.toNat + 2 → exec (.ldMemVx x) s = .next t →
    fetches t (joinBytes (s.getV 0x0#4) (s.getV 0x1#4))

/-! ## Reset and the invariant (70_reset_and_hazards.md, 10_state.md) -/

/-- After reset PC is 0x200, and every byte of memory reads 0 (R64, R270). -/
def Obligations.ResetSetsPcAndZeroesMemory : Prop :=
  State.reset.pc = 0x200#16 ∧
    ∀ s : State, (hostReset s).pc = 0x200#16 ∧
      ∀ a, a ≤ 0xFFF → memRead (hostReset s).pc (hostReset s).mem a = .ok 0x00#8

/-- Reset from any state, a faulted one too, gives every other field the value of R271 and R273 (decisions D5, D18; log
8), and leaves what is outside the core alone. -/
def Obligations.ResetClearsEveryField : Prop :=
  ∀ s : State, (∀ r, (hostReset s).getV r = 0x00#8) ∧ (hostReset s).i = 0x0000#16 ∧ (hostReset s).stack = [] ∧
    (hostReset s).dt = 0x00#8 ∧ (hostReset s).st = 0x00#8 ∧ (hostReset s).drawFlag = false ∧
    (hostReset s).clearFlag = false ∧ (hostReset s).lastOp = none ∧ (hostReset s).fault = none ∧
    (∀ px py, getPixel (hostReset s).disp px py = 0x00#8) ∧ (hostReset s).env = s.env

/-- The invariant holds at reset. -/
def Obligations.ResetMeetsTheInvariant : Prop := State.reset.Inv

/-- Every step keeps the invariant: memory and display stay canonical with every pixel 0 or 1, the stack stays within 16
entries, PC never passes 0x10FE and so never wraps, and a latched fault is precise (R24, R27, R30, R50, R245). -/
def Obligations.EveryStepKeepsTheInvariant : Prop :=
  ∀ s t : State, s.Inv → step s = .next t → t.Inv

/-- Every host operation, in any schedule, keeps the invariant (R37). -/
def Obligations.EveryScheduleKeepsTheInvariant : Prop :=
  ∀ (ops : List HostOp) (s : State), s.Inv → (runSchedule ops s).Inv

/-! ## Fatal errors (60_exceptions.md) -/

/-- A step that raises commits nothing: every field but the latch is as before, the step's input aside, and the recorded
pc is that of the faulting instruction, where PC still stands (R104, R245: decision D4; that it answers a next state is
log 1). -/
def Obligations.FatalStepCommitsNothing : Prop :=
  ∀ (s t : State) (e : Fault), s.fault = none → step s = .next t → t.fault = some e →
    unchangedExcept [.fault, .env] s t ∧ e.pc = s.pc

/-- A step raises exactly the error the rules give, and none where they give none: the fetch's checks first, then the
instruction's own condition with the lowest offending address (R28, R29, R51, R240, R244: decisions D5, D7). That the step
that raises answers a next state with the error latched is the model's choice (log 1). -/
def Obligations.StepRaisesExactlyTheExpectedFault : Prop :=
  ∀ s : State, s.fault = none → ∃ t, step s = .next t ∧ t.fault = expectedFault s

/-- There is no abort and no refusal (R241, R247): every instruction ends in a next state, and so does every step with no
fault latched. That a raising instruction answers a next state, and a step with a fault latched answers none, is the
model's choice (log 1; the latch is decision D5). -/
def Obligations.EveryInstructionAnswersANextState : Prop :=
  (∀ (i : Instr) (s : State), ∃ t, exec i s = .next t) ∧
    ∀ s : State, (∃ t, step s = .next t) ↔ s.fault = none

/-! ## What any instruction may touch (10_state.md R38, 40_execution_cycle.md) -/

/-- Each instruction changes only the fields R38 and R105 give it, beside `last_op` and the latch: only Fx33 and Fx55
write memory, only CALL and RET the stack, only CLS and DRW the display and the render flags, only Fx15 DT, only Fx18 ST,
and none the parameter or the inputs. -/
def Obligations.InstructionsWriteOnlyTheirFields : Prop :=
  ∀ (i : Instr) (s t : State), exec i s = .next t → unchangedExcept (.lastOp :: .fault :: writes i) s t

/-- Each instruction changes only the registers it names as destination, and VF where it is a flag instruction (R22,
R38). -/
def Obligations.OnlyNamedRegistersChange : Prop :=
  ∀ (i : Instr) (s t : State) (r : Nibble), exec i s = .next t → mayWriteReg i r = false → t.getV r = s.getV r

/-- The render flags are sticky: after a completed step the draw flag is set iff it was or the instruction is CLS or DRW,
the clear flag iff it was or the instruction is CLS (R31, R105: decision D3). -/
def Obligations.RenderFlagsAreSticky : Prop :=
  ∀ (i : Instr) (s t : State), s.fault = none → exec i s = .next t → t.fault = none →
    (t.drawFlag = true ↔ s.drawFlag = true ∨ i = .cls ∨ ∃ x y n, i = .drw x y n) ∧
    (t.clearFlag = true ↔ s.clearFlag = true ∨ i = .cls)

/-- After a completed step `last_op` is the instruction the fetched word decodes to; a fatal step leaves it (R32, R106:
decision D32; that a fatal step answers a next state is log 1). -/
def Obligations.LastOpRecordsCompletedSteps : Prop :=
  ∀ (s t : State) (w : Word), fetches s w → step s = .next t →
    (t.fault = none → t.lastOp = some (decode w)) ∧ (t.fault ≠ none → t.lastOp = s.lastOp)

/-- A step's inputs matter only where R109 says: `keys` to SKP, SKNP and LD Vx, K, `rnd` to RND, `key_choice` to LD Vx, K.
Two states that differ in `env` alone, and agree on the inputs the instruction reads and on FONT_BASE, are taken to states
that differ in `env` alone. -/
def Obligations.InputsAreReadOnlyWhereNamed : Prop :=
  ∀ (i : Instr) (s t : State) (e : Env), e.fontBase = s.env.fontBase →
    ((∃ x, i = .skp x ∨ i = .sknp x ∨ i = .ldVxK x) → e.current.keys = s.env.current.keys) →
    ((∃ x kk, i = .rnd x kk) → e.current.rnd = s.env.current.rnd) →
    ((∃ x, i = .ldVxK x) → e.current.keyChoice = s.env.current.keyChoice) →
    exec i s = .next t → ∃ u, exec i { s with env := e } = .next u ∧ unchangedExcept [.env] t u

/-- The core's outputs feed back into nothing: no step reads ST, the render flags or `last_op`, so two states that differ
in them alone are taken to states that differ in them alone (R26, R31, R32). -/
def Obligations.OutputsAreNeverRead : Prop :=
  ∀ (s t : State) (st : Byte) (draw clear : Bool) (op : Option Instr), step s = .next t →
    ∃ u, step { s with st := st, drawFlag := draw, clearFlag := clear, lastOp := op } = .next u ∧
      unchangedExcept [.st, .drawFlag, .clearFlag, .lastOp] t u

/-! ## Loads (43_load_store.md) -/

/-- 6xkk: Vx becomes kk, and with x = F VF is simply the destination (R180); 8xy0: Vx becomes Vy, VF changes only when
x = F, and x = y changes nothing but PC (R181). No flag, no exception. The words are those the rules write. -/
def Obligations.LoadImmediateAndCopy : Prop :=
  ∀ (s : State) (x y : Nibble) (kk : Byte),
    decode (0x6#4 ++ x ++ kk : Word) = .ldImm x kk ∧ decode (0x8#4 ++ x ++ y ++ 0x0#4 : Word) = .ldReg x y ∧
    (completesWith (.ldImm x kk) s [.pc, .v] fun t =>
      t.getV x = kk ∧ regsUnchangedExcept x s t ∧ t.pc = s.pc + 2#16) ∧
    (completesWith (.ldReg x y) s [.pc, .v] fun t =>
      t.getV x = s.getV y ∧ regsUnchangedExcept x s t ∧ t.pc = s.pc + 2#16 ∧ (x = y → t.v = s.v))

/-- Annn, as R182 writes the word: I becomes nnn, zero-extended, any value 0x000 to 0xFFF (R182). -/
def Obligations.LoadIndex : Prop :=
  ∀ (s : State) (nnn : Addr12), decode (0xA#4 ++ nnn : Word) = .ldI nnn ∧ completesWith (.ldI nnn) s [.pc, .i] fun t =>
    t.i.toNat = nnn.toNat ∧ t.pc = s.pc + 2#16

/-- Fx07 reads DT into Vx, Fx15 writes Vx to DT, Fx18 writes Vx to ST (R183, R185, R186; the directions are decision
D23). -/
def Obligations.TimerTransfers : Prop :=
  ∀ (s : State) (x : Nibble),
    (completesWith (.ldVxDt x) s [.pc, .v] fun t =>
      t.getV x = s.dt ∧ regsUnchangedExcept x s t ∧ t.pc = s.pc + 2#16) ∧
    (completesWith (.ldDtVx x) s [.pc, .dt] fun t => t.dt = s.getV x ∧ t.pc = s.pc + 2#16) ∧
    (completesWith (.ldStVx x) s [.pc, .st] fun t => t.st = s.getV x ∧ t.pc = s.pc + 2#16)

/-- Fx0A: with no key pressed the step completes and PC stays (the stall); else PC advances and Vx receives the code of a
pressed key, of any pressed key the choice names (R111, R184; the free choice is decision D14, log 3). -/
def Obligations.WaitForKey : Prop :=
  ∀ (s : State) (x : Nibble),
    (s.keys = 0x0000#16 → completesWith (.ldVxK x) s [] fun _ => True) ∧
    (s.keys ≠ 0x0000#16 → completesWith (.ldVxK x) s [.pc, .v] fun t =>
      (∃ k : Nat, k < 16 ∧ s.keys.getLsbD k = true ∧ (t.getV x).toNat = k ∧
        (s.keys.getLsbD s.keyChoice.toNat = true → k = s.keyChoice.toNat)) ∧
      regsUnchangedExcept x s t ∧ t.pc = s.pc + 2#16)

/-- Fx29 points I at FONT_BASE + 5 times Vx's low nibble, for every FONT_BASE (R187, all of it decision D12); Fx1E adds Vx
to I modulo 2^16, VF unchanged (R213; decisions D2, D11). -/
def Obligations.IndexArithmetic : Prop :=
  ∀ (s : State) (x : Nibble),
    (completesWith (.ldFVx x) s [.pc, .i] fun t =>
      t.i.toNat = (s.env.fontBase.toNat + 5 * ((s.getV x).toNat % 16)) % 65536 ∧ t.pc = s.pc + 2#16) ∧
    (completesWith (.addI x) s [.pc, .i] fun t =>
      t.i.toNat = (s.i.toNat + (s.getV x).toNat) % 65536 ∧ t.pc = s.pc + 2#16)

/-- Fx33: where I to I + 2 are in memory, they receive the hundreds, tens and units of Vx and no other byte changes; else
the error names the first address out of range and nothing is written (R58, R189; the layout is decision D24, the
roll-back D4). -/
def Obligations.StoreDecimalDigits : Prop :=
  ∀ (s : State) (x : Nibble), s.mem.wf →
    (s.i.toNat + 2 ≤ 0xFFF → completesWith (.ldBVx x) s [.pc, .mem] fun t =>
      (t.mem.read s.i.toNat).toNat = (s.getV x).toNat / 100 ∧
      (t.mem.read (s.i.toNat + 1)).toNat = (s.getV x).toNat / 10 % 10 ∧
      (t.mem.read (s.i.toNat + 2)).toNat = (s.getV x).toNat % 10 ∧
      (∀ a, a < s.i.toNat ∨ s.i.toNat + 2 < a → t.mem.read a = s.mem.read a) ∧ t.pc = s.pc + 2#16) ∧
    (0xFFF < s.i.toNat + 2 → raises (.ldBVx x) s (.memOob s.pc (max s.i.toNat 0x1000) .write))

/-- Fx55: where I to I + x are in memory, they receive V0 to Vx, no other byte changes and I stays; else the error names
the first address out of range and nothing is written (R58, R190; the range and the unchanged I are decision D10, the
roll-back D4). -/
def Obligations.StoreRegisters : Prop :=
  ∀ (s : State) (x : Nibble), s.mem.wf →
    (s.i.toNat + x.toNat ≤ 0xFFF → completesWith (.ldMemVx x) s [.pc, .mem] fun t =>
      (∀ r : Nibble, r.toNat ≤ x.toNat → t.mem.read (s.i.toNat + r.toNat) = s.getV r) ∧
      (∀ a, a < s.i.toNat ∨ s.i.toNat + x.toNat < a → t.mem.read a = s.mem.read a) ∧ t.pc = s.pc + 2#16) ∧
    (0xFFF < s.i.toNat + x.toNat → raises (.ldMemVx x) s (.memOob s.pc (max s.i.toNat 0x1000) .write))

/-- Fx65: where I to I + x are in memory, V0 to Vx receive their bytes, the other registers and I stay, and memory is not
written; else the error names the first address out of range and no register changes (R191; decisions D10, D4). -/
def Obligations.LoadRegisters : Prop :=
  ∀ (s : State) (x : Nibble),
    (s.i.toNat + x.toNat ≤ 0xFFF → completesWith (.ldVxMem x) s [.pc, .v] fun t =>
      (∀ r : Nibble, r.toNat ≤ x.toNat → t.getV r = s.mem.read (s.i.toNat + r.toNat)) ∧
      (∀ r : Nibble, x.toNat < r.toNat → t.getV r = s.getV r) ∧ t.pc = s.pc + 2#16) ∧
    (0xFFF < s.i.toNat + x.toNat → raises (.ldVxMem x) s (.memOob s.pc (max s.i.toNat 0x1000) .read))

/-! ## Arithmetic and logic (44_arith_logic.md) -/

/-- 7xkk, as R211 writes the word: Vx becomes (Vx + kk) mod 256; VF is not written unless it is the destination
(R211). -/
def Obligations.AddImmediateNoFlag : Prop :=
  ∀ (s : State) (x : Nibble) (kk : Byte), decode (0x7#4 ++ x ++ kk : Word) = .addImm x kk ∧
    completesWith (.addImm x kk) s [.pc, .v] fun t =>
      (t.getV x).toNat = ((s.getV x).toNat + kk.toNat) % 256 ∧ regsUnchangedExcept x s t ∧ t.pc = s.pc + 2#16

/-- 8xy1, 8xy2, 8xy3: bit by bit OR, AND, XOR of Vx and Vy; VF changes only as the destination; with x = y OR and AND
leave the register and XOR gives 0 (R214, R215, R216). The words are those the rules write. -/
def Obligations.BitwiseLogic : Prop :=
  ∀ (s : State) (x y : Nibble),
    decode (0x8#4 ++ x ++ y ++ 0x1#4 : Word) = .or x y ∧ decode (0x8#4 ++ x ++ y ++ 0x2#4 : Word) = .and x y ∧
    decode (0x8#4 ++ x ++ y ++ 0x3#4 : Word) = .xor x y ∧
    (completesWith (.or x y) s [.pc, .v] fun t =>
      (∀ k, k < 8 → (t.getV x).getLsbD k = ((s.getV x).getLsbD k || (s.getV y).getLsbD k)) ∧
      regsUnchangedExcept x s t ∧ t.pc = s.pc + 2#16 ∧ (x = y → t.v = s.v)) ∧
    (completesWith (.and x y) s [.pc, .v] fun t =>
      (∀ k, k < 8 → (t.getV x).getLsbD k = ((s.getV x).getLsbD k && (s.getV y).getLsbD k)) ∧
      regsUnchangedExcept x s t ∧ t.pc = s.pc + 2#16 ∧ (x = y → t.v = s.v)) ∧
    (completesWith (.xor x y) s [.pc, .v] fun t =>
      (∀ k, k < 8 → (t.getV x).getLsbD k = ((s.getV x).getLsbD k != (s.getV y).getLsbD k)) ∧
      regsUnchangedExcept x s t ∧ t.pc = s.pc + 2#16 ∧ (x = y → t.getV x = 0x00#8))

/-- 8xy4: Vx becomes (Vx + Vy) mod 256 and VF the carry, the flag last, so with x = F VF ends as the carry (R212; the
order is decision D8). -/
def Obligations.AddWithCarry : Prop :=
  ∀ (s : State) (x y : Nibble), completesWith (.addReg x y) s [.pc, .v] fun t =>
    (x ≠ 0xF#4 → (t.getV x).toNat = ((s.getV x).toNat + (s.getV y).toNat) % 256) ∧
    (t.getV 0xF#4).toNat = (if 255 < (s.getV x).toNat + (s.getV y).toNat then 1 else 0) ∧
    (∀ r, r ≠ x → r ≠ 0xF#4 → t.getV r = s.getV r) ∧ t.pc = s.pc + 2#16

/-- 8xy5 and 8xy7: the difference modulo 256, and VF 1 iff no borrow, equality included (R217, R218; the order of writes
is decision D8, the flag at equality D25). -/
def Obligations.SubtractWithNotBorrow : Prop :=
  ∀ (s : State) (x y : Nibble),
    (completesWith (.sub x y) s [.pc, .v] fun t =>
      (x ≠ 0xF#4 → (t.getV x).toNat = (256 + (s.getV x).toNat - (s.getV y).toNat) % 256) ∧
      (t.getV 0xF#4).toNat = (if (s.getV y).toNat ≤ (s.getV x).toNat then 1 else 0) ∧
      (∀ r, r ≠ x → r ≠ 0xF#4 → t.getV r = s.getV r) ∧ t.pc = s.pc + 2#16) ∧
    (completesWith (.subn x y) s [.pc, .v] fun t =>
      (x ≠ 0xF#4 → (t.getV x).toNat = (256 + (s.getV y).toNat - (s.getV x).toNat) % 256) ∧
      (t.getV 0xF#4).toNat = (if (s.getV x).toNat ≤ (s.getV y).toNat then 1 else 0) ∧
      (∀ r, r ≠ x → r ≠ 0xF#4 → t.getV r = s.getV r) ∧ t.pc = s.pc + 2#16)

/-- 8xy6 and 8xyE: Vx shifted by one in place, VF the bit shifted out, Vy ignored (R219, R220; that Vx is shifted is
decision D9, the order of writes D8). -/
def Obligations.ShiftByOne : Prop :=
  ∀ (s : State) (x y : Nibble),
    (completesWith (.shr x y) s [.pc, .v] fun t =>
      (x ≠ 0xF#4 → (t.getV x).toNat = (s.getV x).toNat / 2) ∧
      (t.getV 0xF#4).toNat = (s.getV x).toNat % 2 ∧
      (∀ r, r ≠ x → r ≠ 0xF#4 → t.getV r = s.getV r) ∧ t.pc = s.pc + 2#16) ∧
    (completesWith (.shl x y) s [.pc, .v] fun t =>
      (x ≠ 0xF#4 → (t.getV x).toNat = (2 * (s.getV x).toNat) % 256) ∧
      (t.getV 0xF#4).toNat = (s.getV x).toNat / 128 ∧
      (∀ r, r ≠ x → r ≠ 0xF#4 → t.getV r = s.getV r) ∧ t.pc = s.pc + 2#16)

/-- Cxkk: Vx becomes the step's random byte AND kk, bit by bit, whatever that byte is; kk = 0 gives 0 and kk = 0xFF the
byte itself (R221; the free byte is decision D16, log 2). -/
def Obligations.RandomUnderMask : Prop :=
  ∀ (s : State) (x : Nibble) (kk : Byte), completesWith (.rnd x kk) s [.pc, .v] fun t =>
    (∀ k, k < 8 → (t.getV x).getLsbD k = (s.rnd.getLsbD k && kk.getLsbD k)) ∧
    (kk = 0x00#8 → t.getV x = 0x00#8) ∧ (kk = 0xFF#8 → t.getV x = s.rnd) ∧
    regsUnchangedExcept x s t ∧ t.pc = s.pc + 2#16

/-! ## Control transfer (42_control_flow.md) -/

/-- 1nnn: PC becomes nnn, any value, odd and below 0x200 too; a target of 0xFFF makes the next fetch an error (R151). -/
def Obligations.JumpSetsPc : Prop :=
  ∀ (s : State) (nnn : Addr12), completesWith (.jp nnn) s [.pc] fun t =>
    t.pc.toNat = nnn.toNat ∧ (nnn = 0xFFF#12 → fetchBytes t = .error (.memOob 0xFFF#16 0x1000 .fetch))

/-- Bnnn: PC becomes nnn + V0 with no 12-bit mask (R152; decision D2). -/
def Obligations.JumpWithOffset : Prop :=
  ∀ (s : State) (nnn : Addr12), completesWith (.jpV0 nnn) s [.pc] fun t =>
    t.pc.toNat = nnn.toNat + (s.getV 0x0#4).toNat

/-- 2nnn: below 16 entries the address after the CALL becomes the top of the stack and PC becomes nnn; at 16 the CALL
raises and changes nothing (R28, R153; the pushed value is decision D26, the latch D5). -/
def Obligations.CallPushesReturnAddress : Prop :=
  ∀ (s : State) (nnn : Addr12), s.stack.length ≤ 16 →
    (s.stack.length < 16 → completesWith (.call nnn) s [.pc, .stack] fun t =>
      t.stack = s.stack ++ [s.pc + 2#16] ∧ t.pc.toNat = nnn.toNat) ∧
    (s.stack.length = 16 → raises (.call nnn) s (.stackOverflow s.pc))

/-- 00EE: PC becomes the top entry as it is, and the entry is gone; on an empty stack RET raises and nothing changes; a
popped value of 0xFFF or more makes the next fetch an error (R150). -/
def Obligations.ReturnPopsPc : Prop :=
  ∀ s : State,
    (∀ (l : List Word) (v : Word), s.stack = l ++ [v] → completesWith .ret s [.pc, .stack] fun t =>
      t.pc = v ∧ t.stack = l ∧ (0xFFF ≤ v.toNat → ∃ a, fetchBytes t = .error (.memOob v a .fetch))) ∧
    (s.stack = [] → raises .ret s (.stackUnderflow s.pc))

/-- CALL then RET comes back to the address after the CALL with the stack as it was (the source's property S8; R150,
R153; decision D26). -/
def Obligations.CallThenReturnComesBack : Prop :=
  ∀ (s : State) (nnn : Addr12), s.stack.length < 16 →
    ∃ t u, exec (.call nnn) s = .next t ∧ exec .ret t = .next u ∧ u.pc = s.pc + 2#16 ∧
      unchangedExcept [.pc, .lastOp] s u

/-- 3xkk, 4xkk, 5xy0, 9xy0: two more on PC where Vx equals, or differs from, kk or Vy; nothing else changes (R154 to
R158; the conditions are decision D22). -/
def Obligations.SkipsOnRegisters : Prop :=
  ∀ (s : State) (x y : Nibble) (kk : Byte),
    (completesWith (.seImm x kk) s [.pc] fun t => t.pc = s.pc + (if s.getV x = kk then 4#16 else 2#16)) ∧
    (completesWith (.sneImm x kk) s [.pc] fun t => t.pc = s.pc + (if s.getV x = kk then 2#16 else 4#16)) ∧
    (completesWith (.seReg x y) s [.pc] fun t => t.pc = s.pc + (if s.getV x = s.getV y then 4#16 else 2#16)) ∧
    (completesWith (.sneReg x y) s [.pc] fun t => t.pc = s.pc + (if s.getV x = s.getV y then 2#16 else 4#16))

/-- Ex9E and ExA1: two more on PC where the key whose code is Vx is, or is not, pressed in the step's snapshot; a code
above 0xF is never pressed (R159, R160; decisions D15, D22). -/
def Obligations.SkipsOnKeys : Prop :=
  ∀ (s : State) (x : Nibble),
    (completesWith (.skp x) s [.pc] fun t =>
      ((s.getV x).toNat ≤ 15 ∧ s.keys.getLsbD (s.getV x).toNat = true → t.pc = s.pc + 4#16) ∧
      (¬ ((s.getV x).toNat ≤ 15 ∧ s.keys.getLsbD (s.getV x).toNat = true) → t.pc = s.pc + 2#16)) ∧
    (completesWith (.sknp x) s [.pc] fun t =>
      ((s.getV x).toNat ≤ 15 ∧ s.keys.getLsbD (s.getV x).toNat = true → t.pc = s.pc + 2#16) ∧
      (¬ ((s.getV x).toNat ≤ 15 ∧ s.keys.getLsbD (s.getV x).toNat = true) → t.pc = s.pc + 4#16))

/-- UNKNOWN: no effect but PC + 2 and the record; it never stalls and never halts (R108). -/
def Obligations.UnknownIsANoOp : Prop :=
  ∀ (s : State) (w : Word), completesWith (.unknown w) s [.pc] fun t =>
    t.pc = s.pc + 2#16 ∧ t.lastOp = some (.unknown w)

/-- A self-loop is an end: where the instruction at PC is a jump to PC, every step changes nothing but `last_op`, which is
that jump, and the step's input (R281: decision D36). -/
def Obligations.SelfLoopStays : Prop :=
  ∀ s : State, selfLoop s → ∃ t nnn, step s = .next t ∧ t.lastOp = some (.jp nnn) ∧ zextAddr nnn = s.pc ∧
    unchangedExcept [.lastOp, .env] s t ∧ selfLoop t

/-! ## Display (41_display.md) -/

/-- 00E0: every pixel 0, both render flags 1, VF and all else unchanged, PC + 2 (R134). -/
def Obligations.ClearScreen : Prop :=
  ∀ s : State, decode 0x00E0#16 = .cls ∧ completesWith .cls s [.pc, .disp, .drawFlag, .clearFlag] fun t =>
    (∀ px py, getPixel t.disp px py = 0x00#8) ∧ t.drawFlag = true ∧ t.clearFlag = true ∧ t.pc = s.pc + 2#16

/-- Dxyn, pixel by pixel: where the sprite's bytes are in memory, exactly the pixels under its 1 bits, wrapped, are
flipped; VF is 1 iff one of those was on; the draw flag is set, I, memory and the other registers stay. Else the error
names the first address out of range and no pixel changes (R131, R132, R133, R135; decisions D20, D21, D4). -/
def Obligations.DrawFlipsTheSpritePixels : Prop :=
  ∀ (s : State) (x y n : Nibble), Display.wf s.disp →
    (n = 0x0#4 ∨ s.i.toNat + n.toNat ≤ 0x1000 →
      completesWith (.drw x y n) s [.pc, .v, .disp, .drawFlag] fun t =>
        (∀ px py, px < 64 → py < 32 →
          (spriteCovers s x y n px py → getPixel t.disp px py = getPixel s.disp px py ^^^ 0x01#8) ∧
          (¬ spriteCovers s x y n px py → getPixel t.disp px py = getPixel s.disp px py)) ∧
        (t.getV 0xF#4 = 0x01#8 ↔
          ∃ px py, spriteCovers s x y n px py ∧ getPixel s.disp px py = 0x01#8) ∧
        (t.getV 0xF#4 = 0x00#8 ∨ t.getV 0xF#4 = 0x01#8) ∧
        regsUnchangedExcept 0xF#4 s t ∧ t.drawFlag = true ∧ t.pc = s.pc + 2#16) ∧
    (n ≠ 0x0#4 → 0x1000 < s.i.toNat + n.toNat →
      raises (.drw x y n) s (.memOob s.pc (max s.i.toNat 0x1000) .read))

/-- Drawing the same sprite at the same place twice restores every pixel; from a clear display the first draw reports no
collision, and the second reports one iff the sprite has a 1 bit (the source's properties S3 and S4; R133, R135;
decisions D20, D21). With x = F or y = F the first draw overwrites a coordinate, so the place is not the same one: that
form's effect is DrawFlipsTheSpritePixels. -/
def Obligations.DrawTwiceRestoresTheDisplay : Prop :=
  ∀ (s : State) (x y n : Nibble), Display.wf s.disp → x ≠ 0xF#4 → y ≠ 0xF#4 →
    (n = 0x0#4 ∨ s.i.toNat + n.toNat ≤ 0x1000) →
    ∃ t u, exec (.drw x y n) s = .next t ∧ exec (.drw x y n) t = .next u ∧ u.disp = s.disp ∧
      ((∀ px py, getPixel s.disp px py = 0x00#8) → t.getV 0xF#4 = 0x00#8 ∧
        (u.getV 0xF#4 = 0x01#8 ↔ ∃ px py, spriteCovers s x y n px py))

/-- The read port: a pixel reads with wraparound and is 0 or 1, the export is all 2048 bytes in index order, and neither
changes any state (R136). -/
def Obligations.DisplayReadPort : Prop :=
  ∀ (s : State) (px py : Nat), Display.wf s.disp →
    (∃ b, (HostOp.getPixel px py).apply s = (s, .byte b) ∧ b = Memory.read s.disp (py % 32 * 64 + px % 64) ∧
      (b = 0x00#8 ∨ b = 0x01#8)) ∧
    ∃ l, HostOp.exportDisplay.apply s = (s, .bytes l) ∧ l.length = 2048 ∧
      ∀ p, p < 2048 → l[p]? = some (Memory.read s.disp p)

/-! ## The host's operations -/

/-- `tick` decrements both timers, floored at 0, and changes nothing else (R112). -/
def Obligations.TickDecrementsTimers : Prop :=
  ∀ s : State, ∃ t, HostOp.tick.apply s = (t, .none) ∧ t.dt.toNat = s.dt.toNat - 1 ∧ t.st.toNat = s.st.toNat - 1 ∧
    unchangedExcept [.dt, .st] s t

/-- Any number of ticks, in any state, a faulted one too, takes each timer down by that number and settles at 0 (the
source's property S11; R112, R113: decision D33). -/
def Obligations.TicksSettleAtZero : Prop :=
  ∀ (s : State) (n : Nat),
    (runSchedule (List.replicate n HostOp.tick) s).dt.toNat = s.dt.toNat - n ∧
    (runSchedule (List.replicate n HostOp.tick) s).st.toNat = s.st.toNat - n ∧
    unchangedExcept [.dt, .st] s (runSchedule (List.replicate n HostOp.tick) s)

/-- `sound_on` is 1 exactly while the sound timer is nonzero, and reading it changes nothing (R255). -/
def Obligations.SoundIsOnWhileTimerRuns : Prop :=
  ∀ s : State, ∃ b, HostOp.soundOn.apply s = (s, .bit b) ∧ (b = true ↔ s.st.toNat ≠ 0)

/-- `reset_flags` clears both render flags and nothing else; the reads change no state, and `read_mem` out of range
answers an error without latching it (R36, R114: decisions D3, D34). That the error names PC as its pc is the model's
choice (log 45). What `get_pixel` answers is DisplayReadPort. -/
def Obligations.FlagResetAndReads : Prop :=
  ∀ (s : State) (a px py : Nat),
    (∃ t, HostOp.resetFlags.apply s = (t, .none) ∧ t.drawFlag = false ∧ t.clearFlag = false ∧
      unchangedExcept [.drawFlag, .clearFlag] s t) ∧
    HostOp.shouldDraw.apply s = (s, .bit s.drawFlag) ∧ HostOp.shouldClear.apply s = (s, .bit s.clearFlag) ∧
    HostOp.lastOp.apply s = (s, .lastOp s.lastOp) ∧ HostOp.fault.apply s = (s, .fault s.fault) ∧
    ((HostOp.getPixel px py).apply s).1 = s ∧
    (a ≤ 0xFFF → (HostOp.readMem a).apply s = (s, .byte (s.mem.read a))) ∧
    (0xFFF < a → (HostOp.readMem a).apply s = (s, .fatal (.memOob s.pc a .read)))

/-- `load` copies a program of at most 3584 bytes verbatim to 0x200 upward and changes no other byte and no other field; a
longer one is refused whole, with the error named and not latched (R275: decision D27). -/
def Obligations.LoadCopiesTheProgram : Prop :=
  ∀ (s : State) (bytes : List Byte), s.mem.wf →
    (bytes.length ≤ 3584 → ∃ t, (HostOp.load bytes).apply s = (t, .ok) ∧ unchangedExcept [.mem] s t ∧
      (∀ k (h : k < bytes.length), t.mem.read (0x200 + k) = bytes[k]) ∧
      ∀ a, a < 0x200 ∨ 0x200 + bytes.length ≤ a → t.mem.read a = s.mem.read a) ∧
    (3584 < bytes.length → (HostOp.load bytes).apply s = (s, .fatal (.memOob s.pc 0x1000 .write)))

/-- After the boot sequence installs the 80 conventional glyph bytes at FONT_BASE, Fx29 points I at the five bytes of the
glyph of Vx's low nibble, for every FONT_BASE whose glyphs fit in memory (R187, R188, R277: decisions D12, D13; log 4 and
5). -/
def Obligations.FontPointerFindsTheGlyph : Prop :=
  ∀ (s : State) (x : Nibble), s.mem.wf → s.env.fontBase.toNat + 80 ≤ 0x1000 →
    ∃ t u, (HostOp.installFont Config.fontData).apply s = (t, .ok) ∧ exec (.ldFVx x) t = .next u ∧
      ∀ row, row < 5 →
        some (u.mem.read (u.i.toNat + row)) = Config.fontData[5 * ((s.getV x).toNat % 16) + row]?

end
end

