-- ==== Sys2Proof/Laws/Decode.lean ====
section
/-! SUPPORT. The fields of a word as numbers, a word put together from fields (30_encoding.md R71), and a word as its
bytes (R55). -/

namespace Sys2Proof

theorem fieldOp_toNat (w : Word) : (fieldOp w).toNat = w.toNat / 4096 := by
  have := w.isLt
  simp only [fieldOp, BitVec.extractLsb'_toNat, Nat.shiftRight_eq_div_pow]
  omega

theorem fieldX_toNat (w : Word) : (fieldX w).toNat = w.toNat / 256 % 16 := by
  simp only [fieldX, BitVec.extractLsb'_toNat, Nat.shiftRight_eq_div_pow]

theorem fieldY_toNat (w : Word) : (fieldY w).toNat = w.toNat / 16 % 16 := by
  simp only [fieldY, BitVec.extractLsb'_toNat, Nat.shiftRight_eq_div_pow]

theorem fieldN_toNat (w : Word) : (fieldN w).toNat = w.toNat % 16 := by
  simp only [fieldN, BitVec.extractLsb'_toNat, Nat.shiftRight_eq_div_pow]
  omega

theorem fieldKk_toNat (w : Word) : (fieldKk w).toNat = w.toNat % 256 := by
  simp only [fieldKk, BitVec.extractLsb'_toNat, Nat.shiftRight_eq_div_pow]
  omega

theorem fieldNnn_toNat (w : Word) : (fieldNnn w).toNat = w.toNat % 4096 := by
  simp only [fieldNnn, BitVec.extractLsb'_toNat, Nat.shiftRight_eq_div_pow]
  omega

/-- Concatenation as a number. -/
theorem toNat_concat {m n : Nat} (a : BitVec m) (b : BitVec n) : (a ++ b).toNat = a.toNat * 2 ^ n + b.toNat := by
  rw [BitVec.toNat_append, ← Nat.shiftLeft_add_eq_or_of_lt b.isLt, Nat.shiftLeft_eq]

theorem toNat_nnn (op : Nibble) (nnn : Addr12) : (op ++ nnn : Word).toNat = op.toNat * 4096 + nnn.toNat :=
  toNat_concat op nnn

theorem toNat_x_kk (op x : Nibble) (kk : Byte) :
    (op ++ x ++ kk : Word).toNat = op.toNat * 4096 + x.toNat * 256 + kk.toNat :=
  (toNat_concat (op ++ x) kk).trans (by rw [toNat_concat]; omega)

theorem toNat_x_y_n (op x y n : Nibble) :
    (op ++ x ++ y ++ n : Word).toNat = op.toNat * 4096 + x.toNat * 256 + y.toNat * 16 + n.toNat :=
  (toNat_concat (op ++ x ++ y) n).trans (by rw [toNat_concat, toNat_concat]; omega)

/-- The word of two bytes (R55). -/
theorem toNat_joinBytes (hi lo : Byte) : (joinBytes hi lo).toNat = hi.toNat * 256 + lo.toNat :=
  toNat_concat hi lo

theorem highByte_toNat (w : Word) : (highByte w).toNat = w.toNat / 256 := by
  have := w.isLt
  simp only [highByte, BitVec.extractLsb'_toNat, Nat.shiftRight_eq_div_pow]
  omega

theorem lowByte_toNat (w : Word) : (lowByte w).toNat = w.toNat % 256 := by
  simp only [lowByte, BitVec.extractLsb'_toNat, Nat.shiftRight_eq_div_pow]
  omega

/-- A word is its two bytes. -/
@[simp] theorem joinBytes_bytes (w : Word) : joinBytes (highByte w) (lowByte w) = w := by
  apply BitVec.eq_of_toNat_eq
  rw [toNat_joinBytes, highByte_toNat, lowByte_toNat]
  omega

@[simp] theorem highByte_join (hi lo : Byte) : highByte (joinBytes hi lo) = hi := by
  apply BitVec.eq_of_toNat_eq
  rw [highByte_toNat, toNat_joinBytes]
  have := lo.isLt
  omega

@[simp] theorem lowByte_join (hi lo : Byte) : lowByte (joinBytes hi lo) = lo := by
  apply BitVec.eq_of_toNat_eq
  rw [lowByte_toNat, toNat_joinBytes]
  have := lo.isLt
  omega

/-! ### The fields of an encoded word -/

section
variable (op x y n : Nibble) (kk : Byte) (nnn : Addr12)

@[simp] theorem fieldOp_nnn : fieldOp (op ++ nnn : Word) = op := by
  apply BitVec.eq_of_toNat_eq; rw [fieldOp_toNat, toNat_nnn]; have := nnn.isLt; omega

@[simp] theorem fieldNnn_nnn : fieldNnn (op ++ nnn : Word) = nnn := by
  apply BitVec.eq_of_toNat_eq; rw [fieldNnn_toNat, toNat_nnn]; have := nnn.isLt; omega

@[simp] theorem fieldOp_x_kk : fieldOp (op ++ x ++ kk : Word) = op := by
  apply BitVec.eq_of_toNat_eq; rw [fieldOp_toNat, toNat_x_kk]; have := kk.isLt; have := x.isLt; omega

@[simp] theorem fieldX_x_kk : fieldX (op ++ x ++ kk : Word) = x := by
  apply BitVec.eq_of_toNat_eq; rw [fieldX_toNat, toNat_x_kk]; have := kk.isLt; have := x.isLt; omega

@[simp] theorem fieldKk_x_kk : fieldKk (op ++ x ++ kk : Word) = kk := by
  apply BitVec.eq_of_toNat_eq; rw [fieldKk_toNat, toNat_x_kk]; have := kk.isLt; omega

@[simp] theorem fieldOp_x_y_n : fieldOp (op ++ x ++ y ++ n : Word) = op := by
  apply BitVec.eq_of_toNat_eq; rw [fieldOp_toNat, toNat_x_y_n]
  have := x.isLt; have := y.isLt; have := n.isLt; omega

@[simp] theorem fieldX_x_y_n : fieldX (op ++ x ++ y ++ n : Word) = x := by
  apply BitVec.eq_of_toNat_eq; rw [fieldX_toNat, toNat_x_y_n]
  have := x.isLt; have := y.isLt; have := n.isLt; omega

@[simp] theorem fieldY_x_y_n : fieldY (op ++ x ++ y ++ n : Word) = y := by
  apply BitVec.eq_of_toNat_eq; rw [fieldY_toNat, toNat_x_y_n]
  have := y.isLt; have := n.isLt; omega

@[simp] theorem fieldN_x_y_n : fieldN (op ++ x ++ y ++ n : Word) = n := by
  apply BitVec.eq_of_toNat_eq; rw [fieldN_toNat, toNat_x_y_n]; have := n.isLt; omega

end

/-- The family of an instruction: the top nibble of its word (R11, R74 to R79). -/
def familyOf : Instr → Nibble
  | .cls => 0x0#4
  | .ret => 0x0#4
  | .jp _ => 0x1#4
  | .call _ => 0x2#4
  | .seImm _ _ => 0x3#4
  | .sneImm _ _ => 0x4#4
  | .seReg _ _ => 0x5#4
  | .ldImm _ _ => 0x6#4
  | .addImm _ _ => 0x7#4
  | .ldReg _ _ => 0x8#4
  | .or _ _ => 0x8#4
  | .and _ _ => 0x8#4
  | .xor _ _ => 0x8#4
  | .addReg _ _ => 0x8#4
  | .sub _ _ => 0x8#4
  | .shr _ _ => 0x8#4
  | .subn _ _ => 0x8#4
  | .shl _ _ => 0x8#4
  | .sneReg _ _ => 0x9#4
  | .ldI _ => 0xA#4
  | .jpV0 _ => 0xB#4
  | .rnd _ _ => 0xC#4
  | .drw _ _ _ => 0xD#4
  | .skp _ => 0xE#4
  | .sknp _ => 0xE#4
  | .ldVxDt _ => 0xF#4
  | .ldVxK _ => 0xF#4
  | .ldDtVx _ => 0xF#4
  | .ldStVx _ => 0xF#4
  | .addI _ => 0xF#4
  | .ldFVx _ => 0xF#4
  | .ldBVx _ => 0xF#4
  | .ldMemVx _ => 0xF#4
  | .ldVxMem _ => 0xF#4
  | .unknown w => fieldOp w

end Sys2Proof
end

