-- ==== Sys2Proof/Laws/State.lean ====
section
/-! SUPPORT. One lemma per field per update of State, true by rfl, so that no later proof unfolds a record update. -/

namespace Sys2Proof.Machine

variable (s : State)

/-! ### `State.setPc` -/

@[simp] theorem setPc_v (x : Word) : (s.setPc x).v = s.v := rfl
@[simp] theorem setPc_i (x : Word) : (s.setPc x).i = s.i := rfl
@[simp] theorem setPc_pc (x : Word) : (s.setPc x).pc = x := rfl
@[simp] theorem setPc_dt (x : Word) : (s.setPc x).dt = s.dt := rfl
@[simp] theorem setPc_st (x : Word) : (s.setPc x).st = s.st := rfl
@[simp] theorem setPc_stack (x : Word) : (s.setPc x).stack = s.stack := rfl
@[simp] theorem setPc_mem (x : Word) : (s.setPc x).mem = s.mem := rfl
@[simp] theorem setPc_disp (x : Word) : (s.setPc x).disp = s.disp := rfl
@[simp] theorem setPc_drawFlag (x : Word) : (s.setPc x).drawFlag = s.drawFlag := rfl
@[simp] theorem setPc_clearFlag (x : Word) : (s.setPc x).clearFlag = s.clearFlag := rfl
@[simp] theorem setPc_lastOp (x : Word) : (s.setPc x).lastOp = s.lastOp := rfl
@[simp] theorem setPc_fault (x : Word) : (s.setPc x).fault = s.fault := rfl
@[simp] theorem setPc_env (x : Word) : (s.setPc x).env = s.env := rfl

/-! ### `State.advance` -/

@[simp] theorem advance_v : (s.advance).v = s.v := rfl
@[simp] theorem advance_i : (s.advance).i = s.i := rfl
@[simp] theorem advance_pc : (s.advance).pc = s.pc + 2#16 := rfl
@[simp] theorem advance_dt : (s.advance).dt = s.dt := rfl
@[simp] theorem advance_st : (s.advance).st = s.st := rfl
@[simp] theorem advance_stack : (s.advance).stack = s.stack := rfl
@[simp] theorem advance_mem : (s.advance).mem = s.mem := rfl
@[simp] theorem advance_disp : (s.advance).disp = s.disp := rfl
@[simp] theorem advance_drawFlag : (s.advance).drawFlag = s.drawFlag := rfl
@[simp] theorem advance_clearFlag : (s.advance).clearFlag = s.clearFlag := rfl
@[simp] theorem advance_lastOp : (s.advance).lastOp = s.lastOp := rfl
@[simp] theorem advance_fault : (s.advance).fault = s.fault := rfl
@[simp] theorem advance_env : (s.advance).env = s.env := rfl

/-! ### `State.setI` -/

@[simp] theorem setI_v (x : Word) : (s.setI x).v = s.v := rfl
@[simp] theorem setI_i (x : Word) : (s.setI x).i = x := rfl
@[simp] theorem setI_pc (x : Word) : (s.setI x).pc = s.pc := rfl
@[simp] theorem setI_dt (x : Word) : (s.setI x).dt = s.dt := rfl
@[simp] theorem setI_st (x : Word) : (s.setI x).st = s.st := rfl
@[simp] theorem setI_stack (x : Word) : (s.setI x).stack = s.stack := rfl
@[simp] theorem setI_mem (x : Word) : (s.setI x).mem = s.mem := rfl
@[simp] theorem setI_disp (x : Word) : (s.setI x).disp = s.disp := rfl
@[simp] theorem setI_drawFlag (x : Word) : (s.setI x).drawFlag = s.drawFlag := rfl
@[simp] theorem setI_clearFlag (x : Word) : (s.setI x).clearFlag = s.clearFlag := rfl
@[simp] theorem setI_lastOp (x : Word) : (s.setI x).lastOp = s.lastOp := rfl
@[simp] theorem setI_fault (x : Word) : (s.setI x).fault = s.fault := rfl
@[simp] theorem setI_env (x : Word) : (s.setI x).env = s.env := rfl

/-! ### `State.setDt` -/

@[simp] theorem setDt_v (x : Byte) : (s.setDt x).v = s.v := rfl
@[simp] theorem setDt_i (x : Byte) : (s.setDt x).i = s.i := rfl
@[simp] theorem setDt_pc (x : Byte) : (s.setDt x).pc = s.pc := rfl
@[simp] theorem setDt_dt (x : Byte) : (s.setDt x).dt = x := rfl
@[simp] theorem setDt_st (x : Byte) : (s.setDt x).st = s.st := rfl
@[simp] theorem setDt_stack (x : Byte) : (s.setDt x).stack = s.stack := rfl
@[simp] theorem setDt_mem (x : Byte) : (s.setDt x).mem = s.mem := rfl
@[simp] theorem setDt_disp (x : Byte) : (s.setDt x).disp = s.disp := rfl
@[simp] theorem setDt_drawFlag (x : Byte) : (s.setDt x).drawFlag = s.drawFlag := rfl
@[simp] theorem setDt_clearFlag (x : Byte) : (s.setDt x).clearFlag = s.clearFlag := rfl
@[simp] theorem setDt_lastOp (x : Byte) : (s.setDt x).lastOp = s.lastOp := rfl
@[simp] theorem setDt_fault (x : Byte) : (s.setDt x).fault = s.fault := rfl
@[simp] theorem setDt_env (x : Byte) : (s.setDt x).env = s.env := rfl

/-! ### `State.setSt` -/

@[simp] theorem setSt_v (x : Byte) : (s.setSt x).v = s.v := rfl
@[simp] theorem setSt_i (x : Byte) : (s.setSt x).i = s.i := rfl
@[simp] theorem setSt_pc (x : Byte) : (s.setSt x).pc = s.pc := rfl
@[simp] theorem setSt_dt (x : Byte) : (s.setSt x).dt = s.dt := rfl
@[simp] theorem setSt_st (x : Byte) : (s.setSt x).st = x := rfl
@[simp] theorem setSt_stack (x : Byte) : (s.setSt x).stack = s.stack := rfl
@[simp] theorem setSt_mem (x : Byte) : (s.setSt x).mem = s.mem := rfl
@[simp] theorem setSt_disp (x : Byte) : (s.setSt x).disp = s.disp := rfl
@[simp] theorem setSt_drawFlag (x : Byte) : (s.setSt x).drawFlag = s.drawFlag := rfl
@[simp] theorem setSt_clearFlag (x : Byte) : (s.setSt x).clearFlag = s.clearFlag := rfl
@[simp] theorem setSt_lastOp (x : Byte) : (s.setSt x).lastOp = s.lastOp := rfl
@[simp] theorem setSt_fault (x : Byte) : (s.setSt x).fault = s.fault := rfl
@[simp] theorem setSt_env (x : Byte) : (s.setSt x).env = s.env := rfl

/-! ### `State.setRegs` -/

@[simp] theorem setRegs_v (x : Vector Byte 16) : (s.setRegs x).v = x := rfl
@[simp] theorem setRegs_i (x : Vector Byte 16) : (s.setRegs x).i = s.i := rfl
@[simp] theorem setRegs_pc (x : Vector Byte 16) : (s.setRegs x).pc = s.pc := rfl
@[simp] theorem setRegs_dt (x : Vector Byte 16) : (s.setRegs x).dt = s.dt := rfl
@[simp] theorem setRegs_st (x : Vector Byte 16) : (s.setRegs x).st = s.st := rfl
@[simp] theorem setRegs_stack (x : Vector Byte 16) : (s.setRegs x).stack = s.stack := rfl
@[simp] theorem setRegs_mem (x : Vector Byte 16) : (s.setRegs x).mem = s.mem := rfl
@[simp] theorem setRegs_disp (x : Vector Byte 16) : (s.setRegs x).disp = s.disp := rfl
@[simp] theorem setRegs_drawFlag (x : Vector Byte 16) : (s.setRegs x).drawFlag = s.drawFlag := rfl
@[simp] theorem setRegs_clearFlag (x : Vector Byte 16) : (s.setRegs x).clearFlag = s.clearFlag := rfl
@[simp] theorem setRegs_lastOp (x : Vector Byte 16) : (s.setRegs x).lastOp = s.lastOp := rfl
@[simp] theorem setRegs_fault (x : Vector Byte 16) : (s.setRegs x).fault = s.fault := rfl
@[simp] theorem setRegs_env (x : Vector Byte 16) : (s.setRegs x).env = s.env := rfl

/-! ### `State.setV` -/

@[simp] theorem setV_v (r : Nibble) (x : Byte) : (s.setV r x).v = s.v.set r.toNat x r.isLt := rfl
@[simp] theorem setV_i (r : Nibble) (x : Byte) : (s.setV r x).i = s.i := rfl
@[simp] theorem setV_pc (r : Nibble) (x : Byte) : (s.setV r x).pc = s.pc := rfl
@[simp] theorem setV_dt (r : Nibble) (x : Byte) : (s.setV r x).dt = s.dt := rfl
@[simp] theorem setV_st (r : Nibble) (x : Byte) : (s.setV r x).st = s.st := rfl
@[simp] theorem setV_stack (r : Nibble) (x : Byte) : (s.setV r x).stack = s.stack := rfl
@[simp] theorem setV_mem (r : Nibble) (x : Byte) : (s.setV r x).mem = s.mem := rfl
@[simp] theorem setV_disp (r : Nibble) (x : Byte) : (s.setV r x).disp = s.disp := rfl
@[simp] theorem setV_drawFlag (r : Nibble) (x : Byte) : (s.setV r x).drawFlag = s.drawFlag := rfl
@[simp] theorem setV_clearFlag (r : Nibble) (x : Byte) : (s.setV r x).clearFlag = s.clearFlag := rfl
@[simp] theorem setV_lastOp (r : Nibble) (x : Byte) : (s.setV r x).lastOp = s.lastOp := rfl
@[simp] theorem setV_fault (r : Nibble) (x : Byte) : (s.setV r x).fault = s.fault := rfl
@[simp] theorem setV_env (r : Nibble) (x : Byte) : (s.setV r x).env = s.env := rfl

/-! ### `State.setMem` -/

@[simp] theorem setMem_v (x : Memory) : (s.setMem x).v = s.v := rfl
@[simp] theorem setMem_i (x : Memory) : (s.setMem x).i = s.i := rfl
@[simp] theorem setMem_pc (x : Memory) : (s.setMem x).pc = s.pc := rfl
@[simp] theorem setMem_dt (x : Memory) : (s.setMem x).dt = s.dt := rfl
@[simp] theorem setMem_st (x : Memory) : (s.setMem x).st = s.st := rfl
@[simp] theorem setMem_stack (x : Memory) : (s.setMem x).stack = s.stack := rfl
@[simp] theorem setMem_mem (x : Memory) : (s.setMem x).mem = x := rfl
@[simp] theorem setMem_disp (x : Memory) : (s.setMem x).disp = s.disp := rfl
@[simp] theorem setMem_drawFlag (x : Memory) : (s.setMem x).drawFlag = s.drawFlag := rfl
@[simp] theorem setMem_clearFlag (x : Memory) : (s.setMem x).clearFlag = s.clearFlag := rfl
@[simp] theorem setMem_lastOp (x : Memory) : (s.setMem x).lastOp = s.lastOp := rfl
@[simp] theorem setMem_fault (x : Memory) : (s.setMem x).fault = s.fault := rfl
@[simp] theorem setMem_env (x : Memory) : (s.setMem x).env = s.env := rfl

/-! ### `State.setDisp` -/

@[simp] theorem setDisp_v (x : Display) : (s.setDisp x).v = s.v := rfl
@[simp] theorem setDisp_i (x : Display) : (s.setDisp x).i = s.i := rfl
@[simp] theorem setDisp_pc (x : Display) : (s.setDisp x).pc = s.pc := rfl
@[simp] theorem setDisp_dt (x : Display) : (s.setDisp x).dt = s.dt := rfl
@[simp] theorem setDisp_st (x : Display) : (s.setDisp x).st = s.st := rfl
@[simp] theorem setDisp_stack (x : Display) : (s.setDisp x).stack = s.stack := rfl
@[simp] theorem setDisp_mem (x : Display) : (s.setDisp x).mem = s.mem := rfl
@[simp] theorem setDisp_disp (x : Display) : (s.setDisp x).disp = x := rfl
@[simp] theorem setDisp_drawFlag (x : Display) : (s.setDisp x).drawFlag = s.drawFlag := rfl
@[simp] theorem setDisp_clearFlag (x : Display) : (s.setDisp x).clearFlag = s.clearFlag := rfl
@[simp] theorem setDisp_lastOp (x : Display) : (s.setDisp x).lastOp = s.lastOp := rfl
@[simp] theorem setDisp_fault (x : Display) : (s.setDisp x).fault = s.fault := rfl
@[simp] theorem setDisp_env (x : Display) : (s.setDisp x).env = s.env := rfl

/-! ### `State.setStack` -/

@[simp] theorem setStack_v (x : List Word) : (s.setStack x).v = s.v := rfl
@[simp] theorem setStack_i (x : List Word) : (s.setStack x).i = s.i := rfl
@[simp] theorem setStack_pc (x : List Word) : (s.setStack x).pc = s.pc := rfl
@[simp] theorem setStack_dt (x : List Word) : (s.setStack x).dt = s.dt := rfl
@[simp] theorem setStack_st (x : List Word) : (s.setStack x).st = s.st := rfl
@[simp] theorem setStack_stack (x : List Word) : (s.setStack x).stack = x := rfl
@[simp] theorem setStack_mem (x : List Word) : (s.setStack x).mem = s.mem := rfl
@[simp] theorem setStack_disp (x : List Word) : (s.setStack x).disp = s.disp := rfl
@[simp] theorem setStack_drawFlag (x : List Word) : (s.setStack x).drawFlag = s.drawFlag := rfl
@[simp] theorem setStack_clearFlag (x : List Word) : (s.setStack x).clearFlag = s.clearFlag := rfl
@[simp] theorem setStack_lastOp (x : List Word) : (s.setStack x).lastOp = s.lastOp := rfl
@[simp] theorem setStack_fault (x : List Word) : (s.setStack x).fault = s.fault := rfl
@[simp] theorem setStack_env (x : List Word) : (s.setStack x).env = s.env := rfl

/-! ### `State.setFlags` -/

@[simp] theorem setFlags_v (x y : Bool) : (s.setFlags x y).v = s.v := rfl
@[simp] theorem setFlags_i (x y : Bool) : (s.setFlags x y).i = s.i := rfl
@[simp] theorem setFlags_pc (x y : Bool) : (s.setFlags x y).pc = s.pc := rfl
@[simp] theorem setFlags_dt (x y : Bool) : (s.setFlags x y).dt = s.dt := rfl
@[simp] theorem setFlags_st (x y : Bool) : (s.setFlags x y).st = s.st := rfl
@[simp] theorem setFlags_stack (x y : Bool) : (s.setFlags x y).stack = s.stack := rfl
@[simp] theorem setFlags_mem (x y : Bool) : (s.setFlags x y).mem = s.mem := rfl
@[simp] theorem setFlags_disp (x y : Bool) : (s.setFlags x y).disp = s.disp := rfl
@[simp] theorem setFlags_drawFlag (x y : Bool) : (s.setFlags x y).drawFlag = x := rfl
@[simp] theorem setFlags_clearFlag (x y : Bool) : (s.setFlags x y).clearFlag = y := rfl
@[simp] theorem setFlags_lastOp (x y : Bool) : (s.setFlags x y).lastOp = s.lastOp := rfl
@[simp] theorem setFlags_fault (x y : Bool) : (s.setFlags x y).fault = s.fault := rfl
@[simp] theorem setFlags_env (x y : Bool) : (s.setFlags x y).env = s.env := rfl

/-! ### `State.consumeInput` -/

@[simp] theorem consumeInput_v : (s.consumeInput).v = s.v := rfl
@[simp] theorem consumeInput_i : (s.consumeInput).i = s.i := rfl
@[simp] theorem consumeInput_pc : (s.consumeInput).pc = s.pc := rfl
@[simp] theorem consumeInput_dt : (s.consumeInput).dt = s.dt := rfl
@[simp] theorem consumeInput_st : (s.consumeInput).st = s.st := rfl
@[simp] theorem consumeInput_stack : (s.consumeInput).stack = s.stack := rfl
@[simp] theorem consumeInput_mem : (s.consumeInput).mem = s.mem := rfl
@[simp] theorem consumeInput_disp : (s.consumeInput).disp = s.disp := rfl
@[simp] theorem consumeInput_drawFlag : (s.consumeInput).drawFlag = s.drawFlag := rfl
@[simp] theorem consumeInput_clearFlag : (s.consumeInput).clearFlag = s.clearFlag := rfl
@[simp] theorem consumeInput_lastOp : (s.consumeInput).lastOp = s.lastOp := rfl
@[simp] theorem consumeInput_fault : (s.consumeInput).fault = s.fault := rfl
@[simp] theorem consumeInput_env : (s.consumeInput).env = { s.env with inputs := s.env.inputs.tail, stepCount := s.env.stepCount + 1 } := rfl

/-! ### `State.takeFatal` -/

@[simp] theorem takeFatal_v (e : Fault) : (s.takeFatal e).v = s.v := rfl
@[simp] theorem takeFatal_i (e : Fault) : (s.takeFatal e).i = s.i := rfl
@[simp] theorem takeFatal_pc (e : Fault) : (s.takeFatal e).pc = s.pc := rfl
@[simp] theorem takeFatal_dt (e : Fault) : (s.takeFatal e).dt = s.dt := rfl
@[simp] theorem takeFatal_st (e : Fault) : (s.takeFatal e).st = s.st := rfl
@[simp] theorem takeFatal_stack (e : Fault) : (s.takeFatal e).stack = s.stack := rfl
@[simp] theorem takeFatal_mem (e : Fault) : (s.takeFatal e).mem = s.mem := rfl
@[simp] theorem takeFatal_disp (e : Fault) : (s.takeFatal e).disp = s.disp := rfl
@[simp] theorem takeFatal_drawFlag (e : Fault) : (s.takeFatal e).drawFlag = s.drawFlag := rfl
@[simp] theorem takeFatal_clearFlag (e : Fault) : (s.takeFatal e).clearFlag = s.clearFlag := rfl
@[simp] theorem takeFatal_lastOp (e : Fault) : (s.takeFatal e).lastOp = s.lastOp := rfl
@[simp] theorem takeFatal_fault (e : Fault) : (s.takeFatal e).fault = some e := rfl
@[simp] theorem takeFatal_env (e : Fault) : (s.takeFatal e).env = s.env := rfl

/-! ### `State.complete` -/

@[simp] theorem complete_v (op : Instr) : (s.complete op).v = s.v := rfl
@[simp] theorem complete_i (op : Instr) : (s.complete op).i = s.i := rfl
@[simp] theorem complete_pc (op : Instr) : (s.complete op).pc = s.pc := rfl
@[simp] theorem complete_dt (op : Instr) : (s.complete op).dt = s.dt := rfl
@[simp] theorem complete_st (op : Instr) : (s.complete op).st = s.st := rfl
@[simp] theorem complete_stack (op : Instr) : (s.complete op).stack = s.stack := rfl
@[simp] theorem complete_mem (op : Instr) : (s.complete op).mem = s.mem := rfl
@[simp] theorem complete_disp (op : Instr) : (s.complete op).disp = s.disp := rfl
@[simp] theorem complete_drawFlag (op : Instr) : (s.complete op).drawFlag = s.drawFlag := rfl
@[simp] theorem complete_clearFlag (op : Instr) : (s.complete op).clearFlag = s.clearFlag := rfl
@[simp] theorem complete_lastOp (op : Instr) : (s.complete op).lastOp = some op := rfl
@[simp] theorem complete_fault (op : Instr) : (s.complete op).fault = s.fault := rfl
@[simp] theorem complete_env (op : Instr) : (s.complete op).env = s.env := rfl

/-! ### `State.offer` -/

@[simp] theorem offer_v (x : StepInput) : (s.offer x).v = s.v := rfl
@[simp] theorem offer_i (x : StepInput) : (s.offer x).i = s.i := rfl
@[simp] theorem offer_pc (x : StepInput) : (s.offer x).pc = s.pc := rfl
@[simp] theorem offer_dt (x : StepInput) : (s.offer x).dt = s.dt := rfl
@[simp] theorem offer_st (x : StepInput) : (s.offer x).st = s.st := rfl
@[simp] theorem offer_stack (x : StepInput) : (s.offer x).stack = s.stack := rfl
@[simp] theorem offer_mem (x : StepInput) : (s.offer x).mem = s.mem := rfl
@[simp] theorem offer_disp (x : StepInput) : (s.offer x).disp = s.disp := rfl
@[simp] theorem offer_drawFlag (x : StepInput) : (s.offer x).drawFlag = s.drawFlag := rfl
@[simp] theorem offer_clearFlag (x : StepInput) : (s.offer x).clearFlag = s.clearFlag := rfl
@[simp] theorem offer_lastOp (x : StepInput) : (s.offer x).lastOp = s.lastOp := rfl
@[simp] theorem offer_fault (x : StepInput) : (s.offer x).fault = s.fault := rfl
@[simp] theorem offer_env (x : StepInput) : (s.offer x).env = { s.env with inputs := x :: s.env.inputs } := rfl

end Sys2Proof.Machine
end

