-- ==== Sys2Proof/Laws/Memory.lean ====
section
/-! SUPPORT. The laws of the byte store behind memory and display: read after write, the canonical form, and what the
range-checked accesses and blocks of them answer (20_memory.md R51 to R53). -/

namespace Sys2Proof.Machine

@[simp] theorem Memory.read_nil (a : Nat) : Memory.read [] a = unlistedByte := rfl

theorem Memory.read_cons (k : Nat) (b : Byte) (m : Memory) (a : Nat) :
    Memory.read ((k, b) :: m) a = if k = a then b else Memory.read m a := rfl

/-- Below every listed address nothing is listed. -/
theorem Memory.read_of_lt (m : Memory) (a : Nat) (h : ∀ c ∈ m, a < c.1) : m.read a = unlistedByte := by
  induction m with
  | nil => rfl
  | cons c m ih =>
    obtain ⟨k, b⟩ := c
    have hk : a < k := h (k, b) (by simp)
    rw [Memory.read_cons, if_neg (by omega), ih fun c hc => h c (by simp [hc])]

/-- A write leaves every other address alone. -/
theorem Memory.read_write_other (m : Memory) (a c : Nat) (b : Byte) (h : c ≠ a) :
    (m.write a b).read c = m.read c := by
  induction m with
  | nil =>
    unfold Memory.write
    split <;> simp [Memory.read_cons, Ne.symm h]
  | cons e m ih =>
    obtain ⟨k, x⟩ := e
    unfold Memory.write
    split_ifs with h1 h2 h3 h4
    · simp [Memory.read_cons, ih]
    · subst h2; simp [Memory.read_cons, Ne.symm h]
    · subst h2; simp [Memory.read_cons, Ne.symm h]
    · rfl
    · simp [Memory.read_cons, Ne.symm h]

/-- The keys of a write: the old ones and perhaps the new one. -/
theorem Memory.mem_write (m : Memory) (a : Nat) (b : Byte) (c : Host.Cell) (h : c ∈ m.write a b) :
    c ∈ m ∨ (c = (a, b) ∧ b ≠ unlistedByte) := by
  induction m with
  | nil =>
    unfold Memory.write at h
    split at h
    · simp at h
    · simp at h; exact .inr ⟨h, ‹_›⟩
  | cons e m ih =>
    obtain ⟨k, x⟩ := e
    unfold Memory.write at h
    split_ifs at h with h1 h2 h3 h4
    · rcases List.mem_cons.mp h with h | h
      · exact .inl (by simp [h])
      · rcases ih h with h | h
        · exact .inl (by simp [h])
        · exact .inr h
    · exact .inl (by simp [h])
    · rcases List.mem_cons.mp h with h | h
      · exact .inr ⟨h, h3⟩
      · exact .inl (by simp [h])
    · exact .inl h
    · rcases List.mem_cons.mp h with h | h
      · exact .inr ⟨h, h4⟩
      · exact .inl h

/-- The addresses of the listed bytes strictly rise. -/
abbrev Memory.sorted (m : Memory) : Prop := (m.map Prod.fst).Pairwise (· < ·)

theorem Memory.sorted_cons (k : Nat) (x : Byte) (m : Memory) :
    Memory.sorted ((k, x) :: m) ↔ (∀ c ∈ m, k < c.1) ∧ Memory.sorted m := by
  simp [Memory.sorted, List.pairwise_cons]

theorem Memory.sorted_write (m : Memory) (a : Nat) (b : Byte) (h : m.sorted) : (m.write a b).sorted := by
  induction m with
  | nil =>
    unfold Memory.write
    split <;> simp [Memory.sorted]
  | cons e m ih =>
    obtain ⟨k, x⟩ := e
    obtain ⟨hk, hm⟩ := (Memory.sorted_cons k x m).mp h
    unfold Memory.write
    split_ifs with h1 h2 h3 h4
    · refine (Memory.sorted_cons _ _ _).mpr ⟨fun c hc => ?_, ih hm⟩
      rcases Memory.mem_write m a b c hc with hc | ⟨rfl, -⟩
      · exact hk c hc
      · exact h1
    · exact hm
    · exact (Memory.sorted_cons _ _ _).mpr ⟨fun c hc => h2 ▸ hk c hc, hm⟩
    · exact h
    · refine (Memory.sorted_cons _ _ _).mpr ⟨fun c hc => ?_, h⟩
      rcases List.mem_cons.mp hc with rfl | hc
      · show a < k; omega
      · have := hk c hc; omega

/-- A read after a write to the same place gives the value written, in a sorted store. -/
theorem Memory.read_write_same (m : Memory) (a : Nat) (b : Byte) (h : m.sorted) : (m.write a b).read a = b := by
  induction m with
  | nil =>
    unfold Memory.write
    split
    · simp [*]
    · simp [Memory.read_cons]
  | cons e m ih =>
    obtain ⟨k, x⟩ := e
    obtain ⟨hk, hm⟩ := (Memory.sorted_cons k x m).mp h
    unfold Memory.write
    split_ifs with h1 h2 h3 h4
    · rw [Memory.read_cons, if_neg (by omega), ih hm]
    · rw [h3]; exact Memory.read_of_lt m a fun c hc => h2 ▸ hk c hc
    · simp [Memory.read_cons]
    · rw [h4]
      refine Memory.read_of_lt _ a fun c hc => ?_
      rcases List.mem_cons.mp hc with rfl | hc
      · show a < k; omega
      · have := hk c hc; omega
    · simp [Memory.read_cons]

/-- Both laws at once. -/
theorem Memory.read_write (m : Memory) (a c : Nat) (b : Byte) (h : m.sorted) :
    (m.write a b).read c = if c = a then b else m.read c := by
  split
  · subst c; exact Memory.read_write_same m a b h
  · exact Memory.read_write_other m a c b ‹_›

theorem Memory.canonical_nil (size : Nat) : Memory.canonical size [] :=
  ⟨List.Pairwise.nil, fun _ hc => absurd hc List.not_mem_nil⟩

/-- Every write in range keeps the canonical form. -/
theorem Memory.canonical_write (size : Nat) (m : Memory) (a : Nat) (b : Byte) (ha : a < size)
    (h : m.canonical size) : (m.write a b).canonical size := by
  refine ⟨Memory.sorted_write m a b h.1, fun c hc => ?_⟩
  rcases Memory.mem_write m a b c hc with hc | ⟨rfl, hb⟩
  · exact h.2 c hc
  · exact ⟨ha, hb⟩

/-- A canonical store lists exactly the bytes that differ from the unlisted one. -/
theorem Memory.mem_iff_read (m : Memory) (h : m.sorted) (hz : ∀ c ∈ m, c.2 ≠ unlistedByte) (a : Nat) (b : Byte) :
    (a, b) ∈ m ↔ m.read a = b ∧ b ≠ unlistedByte := by
  induction m with
  | nil => simp only [List.not_mem_nil, Memory.read_nil, false_iff, not_and]; exact fun h => absurd h.symm
  | cons e m ih =>
    obtain ⟨k, x⟩ := e
    obtain ⟨hk, hm⟩ := (Memory.sorted_cons k x m).mp h
    have ih := ih hm fun c hc => hz c (by simp [hc])
    rw [Memory.read_cons, List.mem_cons]
    by_cases hka : k = a
    · subst hka
      have hn : ¬ (k, b) ∈ m := fun hc => Nat.lt_irrefl _ (hk _ hc)
      have hx : x ≠ unlistedByte := hz (k, x) (by simp)
      simp only [Prod.mk.injEq, true_and, hn, or_false, if_true]
      constructor
      · rintro rfl; exact ⟨rfl, hx⟩
      · exact fun h => h.1.symm
    · simp [Prod.ext_iff, Ne.symm hka, hka, ih]

/-! ### Range-checked accesses -/

theorem memRead_ok (pc : Word) (m : Memory) (a : Nat) (h : a ≤ 0xFFF) : memRead pc m a = .ok (m.read a) :=
  if_neg (by omega)

theorem memRead_error (pc : Word) (m : Memory) (a : Nat) (h : 0xFFF < a) :
    memRead pc m a = .error (.memOob pc a .read) := if_pos h

theorem memWrite_ok (pc : Word) (m : Memory) (a : Nat) (b : Byte) (h : a ≤ 0xFFF) :
    memWrite pc m a b = .ok (m.write a b) := if_neg (by omega)

theorem memWrite_error (pc : Word) (m : Memory) (a : Nat) (b : Byte) (h : 0xFFF < a) :
    memWrite pc m a b = .error (.memOob pc a .write) := if_pos h

/-- The first address out of range of a block that starts at `a`: the least `a + k` above 0xFFF. -/
def firstOutOfRange (a : Nat) : Nat := max a 0x1000

/-- Everything a block read can do: all bytes, in order, or the lowest offending address (R244). -/
theorem memReadBlock_eq (pc : Word) (m : Memory) (a n : Nat) :
    memReadBlock pc m a n =
      if n = 0 ∨ a + n ≤ 0x1000 then .ok ((List.range n).map fun k => m.read (a + k))
      else .error (.memOob pc (firstOutOfRange a) .read) := by
  induction n generalizing a with
  | zero => simp [memReadBlock]
  | succ n ih =>
    unfold memReadBlock
    by_cases ha : 0xFFF < a
    · rw [memRead_error _ _ _ ha, if_neg (by omega), firstOutOfRange, Nat.max_eq_left (by omega)]
    · rw [memRead_ok _ _ _ (by omega), ih]
      by_cases hn : a + (n + 1) ≤ 0x1000
      · rw [if_pos (.inr (by omega)), if_pos (.inr hn)]
        simp [List.range_succ_eq_map, Function.comp_def, Nat.add_assoc, Nat.add_comm 1]
      · rw [if_neg (by omega), if_neg (by omega)]
        simp only [firstOutOfRange]
        congr 2
        omega

/-- Memory after bytes are written from `a` upward, in order. -/
def Memory.writeList (m : Memory) (a : Nat) : List Byte → Memory
  | [] => m
  | b :: bs => Memory.writeList (m.write a b) (a + 1) bs

/-- Everything a block write can do. -/
theorem memWriteBlock_eq (pc : Word) (m : Memory) (a : Nat) (bs : List Byte) :
    memWriteBlock pc m a bs =
      if bs = [] ∨ a + bs.length ≤ 0x1000 then .ok (m.writeList a bs)
      else .error (.memOob pc (firstOutOfRange a) .write) := by
  induction bs generalizing m a with
  | nil => simp [memWriteBlock, Memory.writeList]
  | cons b bs ih =>
    unfold memWriteBlock
    by_cases ha : 0xFFF < a
    · rw [memWrite_error _ _ _ _ ha, firstOutOfRange, Nat.max_eq_left (by omega), if_neg]
      rintro (h | h)
      · cases h
      · simp only [List.length_cons] at h; omega
    · rw [memWrite_ok _ _ _ _ (by omega)]
      simp only [ih, List.length_cons, Memory.writeList]
      by_cases hn : a + (bs.length + 1) ≤ 0x1000
      · rw [if_pos (.inr (by omega)), if_pos (.inr hn)]
      · have hne : bs ≠ [] := by rintro rfl; simp at hn; omega
        have h1 : ¬ (bs = [] ∨ a + 1 + bs.length ≤ 0x1000) := fun h => by
          rcases h with h | h
          · exact hne h
          · omega
        have h2 : ¬ (b :: bs = [] ∨ a + (bs.length + 1) ≤ 0x1000) := fun h => by
          rcases h with h | h
          · cases h
          · omega
        rw [if_neg h1, if_neg h2]
        simp only [firstOutOfRange]
        congr 2
        omega

theorem memReadBlock_ok (pc : Word) (m : Memory) (a n : Nat) (h : n = 0 ∨ a + n ≤ 0x1000) :
    memReadBlock pc m a n = .ok ((List.range n).map fun k => m.read (a + k)) := by
  rw [memReadBlock_eq, if_pos h]

theorem memReadBlock_error (pc : Word) (m : Memory) (a n : Nat) (hn : n ≠ 0) (h : 0x1000 < a + n) :
    memReadBlock pc m a n = .error (.memOob pc (firstOutOfRange a) .read) := by
  rw [memReadBlock_eq, if_neg (by omega)]

theorem memWriteBlock_ok (pc : Word) (m : Memory) (a : Nat) (bs : List Byte)
    (h : bs = [] ∨ a + bs.length ≤ 0x1000) : memWriteBlock pc m a bs = .ok (m.writeList a bs) := by
  rw [memWriteBlock_eq, if_pos h]

theorem memWriteBlock_error (pc : Word) (m : Memory) (a : Nat) (bs : List Byte) (hn : bs ≠ [])
    (h : 0x1000 < a + bs.length) : memWriteBlock pc m a bs = .error (.memOob pc (firstOutOfRange a) .write) := by
  rw [memWriteBlock_eq, if_neg]
  rintro (h' | h')
  · exact hn h'
  · omega

theorem Memory.sorted_writeList (m : Memory) (a : Nat) (bs : List Byte) (h : m.sorted) :
    (m.writeList a bs).sorted := by
  induction bs generalizing m a with
  | nil => exact h
  | cons b bs ih => exact ih _ _ (Memory.sorted_write m a b h)

theorem Memory.canonical_writeList (size : Nat) (m : Memory) (a : Nat) (bs : List Byte)
    (ha : a + bs.length ≤ size) (h : m.canonical size) : (m.writeList a bs).canonical size := by
  induction bs generalizing m a with
  | nil => exact h
  | cons b bs ih =>
    simp only [List.length_cons] at ha
    exact ih _ _ (by omega) (Memory.canonical_write size m a b (by omega) h)

/-- Outside the bytes written nothing changes. -/
theorem Memory.read_writeList_other (m : Memory) (a c : Nat) (bs : List Byte)
    (h : c < a ∨ a + bs.length ≤ c) : (m.writeList a bs).read c = m.read c := by
  induction bs generalizing m a with
  | nil => rfl
  | cons b bs ih =>
    simp only [List.length_cons] at h
    rw [Memory.writeList, ih _ _ (by omega), Memory.read_write_other _ _ _ _ (by omega)]

/-- Each byte written reads back. -/
theorem Memory.read_writeList_same (m : Memory) (a k : Nat) (bs : List Byte) (h : m.sorted) (hk : k < bs.length) :
    (m.writeList a bs).read (a + k) = bs[k] := by
  induction bs generalizing m a k with
  | nil => simp at hk
  | cons b bs ih =>
    rw [Memory.writeList]
    cases k with
    | zero =>
      rw [Memory.read_writeList_other _ _ _ _ (by omega)]
      exact Memory.read_write_same m a b h
    | succ k =>
      simp only [List.length_cons] at hk
      have := ih (m.write a b) (a + 1) k (Memory.sorted_write m a b h) (by omega)
      rw [show a + (k + 1) = a + 1 + k by omega, this]
      rfl

end Sys2Proof.Machine
end

