-- ==== Sys2Proof/Laws/Registers.lean ====
section
/-! SUPPORT. The laws of the register file, the flag write and the register blocks (10_state.md R21, R22; 43_load_store.md
R190, R191), and of the operand forms. -/

namespace Sys2Proof.Machine

/-- Reading a register after one is written (R21). -/
theorem getV_setV (s : State) (x y : Nibble) (b : Byte) :
    (s.setV x b).getV y = if y = x then b else s.getV y := by
  simp only [State.getV, State.setV, Vector.getElem_set]
  by_cases h : y = x
  · simp [h]
  · have : x.toNat ≠ y.toNat := fun hn => h (BitVec.eq_of_toNat_eq hn.symm)
    simp [h, this]

@[simp] theorem getV_setV_same (s : State) (x : Nibble) (b : Byte) : (s.setV x b).getV x = b := by
  simp [getV_setV]

theorem getV_setV_other (s : State) (x y : Nibble) (b : Byte) (h : y ≠ x) : (s.setV x b).getV y = s.getV y := by
  simp [getV_setV, h]

/-- A register read depends on V alone. -/
theorem getV_congr {s t : State} (h : t.v = s.v) (x : Nibble) : t.getV x = s.getV x := by
  simp [State.getV, h]

@[simp] theorem getV_advance (s : State) (x : Nibble) : s.advance.getV x = s.getV x := rfl
@[simp] theorem getV_setPc (s : State) (p : Word) (x : Nibble) : (s.setPc p).getV x = s.getV x := rfl
@[simp] theorem getV_setI (s : State) (p : Word) (x : Nibble) : (s.setI p).getV x = s.getV x := rfl
@[simp] theorem getV_setDt (s : State) (b : Byte) (x : Nibble) : (s.setDt b).getV x = s.getV x := rfl
@[simp] theorem getV_setSt (s : State) (b : Byte) (x : Nibble) : (s.setSt b).getV x = s.getV x := rfl
@[simp] theorem getV_setMem (s : State) (m : Memory) (x : Nibble) : (s.setMem m).getV x = s.getV x := rfl
@[simp] theorem getV_setDisp (s : State) (d : Display) (x : Nibble) : (s.setDisp d).getV x = s.getV x := rfl
@[simp] theorem getV_setStack (s : State) (l : List Word) (x : Nibble) : (s.setStack l).getV x = s.getV x := rfl
@[simp] theorem getV_setFlags (s : State) (a b : Bool) (x : Nibble) : (s.setFlags a b).getV x = s.getV x := rfl
@[simp] theorem getV_complete (s : State) (op : Instr) (x : Nibble) : (s.complete op).getV x = s.getV x := rfl
@[simp] theorem getV_takeFatal (s : State) (e : Fault) (x : Nibble) : (s.takeFatal e).getV x = s.getV x := rfl
@[simp] theorem getV_consumeInput (s : State) (x : Nibble) : s.consumeInput.getV x = s.getV x := rfl

/-- After a flag instruction VF holds the flag, whatever x is (R22). -/
@[simp] theorem setResultAndFlag_vf (s : State) (x : Nibble) (r : Byte) (f : Bool) :
    (s.setResultAndFlag x r f).getV vf = flagByte f := by simp [State.setResultAndFlag]

/-- After a flag instruction Vx holds the result, unless x = F. -/
theorem setResultAndFlag_result (s : State) (x : Nibble) (r : Byte) (f : Bool) (h : x ≠ vf) :
    (s.setResultAndFlag x r f).getV x = r := by
  simp [State.setResultAndFlag, getV_setV_other _ _ _ _ h]

/-- A flag instruction writes no register but Vx and VF. -/
theorem setResultAndFlag_other (s : State) (x y : Nibble) (r : Byte) (f : Bool) (hx : y ≠ x) (hf : y ≠ vf) :
    (s.setResultAndFlag x r f).getV y = s.getV y := by
  simp [State.setResultAndFlag, getV_setV_other _ _ _ _ hf, getV_setV_other _ _ _ _ hx]

@[simp] theorem setResultAndFlag_fields (s : State) (x : Nibble) (r : Byte) (f : Bool) :
    (s.setResultAndFlag x r f).pc = s.pc ∧ (s.setResultAndFlag x r f).i = s.i ∧
    (s.setResultAndFlag x r f).dt = s.dt ∧ (s.setResultAndFlag x r f).st = s.st ∧
    (s.setResultAndFlag x r f).stack = s.stack ∧ (s.setResultAndFlag x r f).mem = s.mem ∧
    (s.setResultAndFlag x r f).disp = s.disp ∧ (s.setResultAndFlag x r f).drawFlag = s.drawFlag ∧
    (s.setResultAndFlag x r f).clearFlag = s.clearFlag ∧ (s.setResultAndFlag x r f).lastOp = s.lastOp ∧
    (s.setResultAndFlag x r f).fault = s.fault ∧ (s.setResultAndFlag x r f).env = s.env := by
  simp [State.setResultAndFlag]

theorem flagByte_eq_one (b : Bool) : flagByte b = 0x01#8 ↔ b = true := by cases b <;> decide

/-- A block load writes exactly the registers it has bytes for (R191). -/
theorem loadRegs_getElem (v : Vector Byte 16) (i : Nat) (bs : List Byte) (j : Nat) (hj : j < 16) :
    (loadRegs v i bs)[j] = if h : i ≤ j ∧ j - i < bs.length then bs[j - i]'h.2 else v[j] := by
  induction bs generalizing v i with
  | nil => simp [loadRegs]
  | cons b bs ih =>
    rw [loadRegs, ih]
    by_cases h : i + 1 ≤ j ∧ j - (i + 1) < bs.length
    · obtain ⟨k, hk⟩ : ∃ k, j - i = k + 1 := ⟨j - (i + 1), by omega⟩
      rw [dif_pos h, dif_pos ⟨by omega, by simp only [List.length_cons]; omega⟩]
      simp [hk, show j - (i + 1) = k by omega]
    · rw [dif_neg h]
      by_cases hij : i = j
      · subst hij
        simp [hj]
      · have hn : ¬ (i ≤ j ∧ j - i < (b :: bs).length) := fun hc => h ⟨by omega, by
          have := hc.2
          simp only [List.length_cons] at this
          omega⟩
        rw [dif_neg hn]
        by_cases hi : i < 16
        · simp only [hi, dif_pos]
          exact Vector.getElem_set_ne _ _ hij
        · simp only [hi, dif_neg, not_false_eq_true]

/-- The bytes a block store writes: V0 to Vx in order (R190). -/
theorem regBlock_length (s : State) (x : Nibble) : (regBlock s x).length = x.toNat + 1 := by
  have := x.isLt
  simp [regBlock]; omega

theorem regBlock_getElem (s : State) (x : Nibble) (k : Nat) (h : k < (regBlock s x).length) :
    (regBlock s x)[k] = s.v[k]'(by rw [regBlock_length] at h; have := x.isLt; omega) := by
  simp [regBlock]

theorem bcdDigits_length (v : Byte) : (bcdDigits v).length = 3 := rfl

/-- The chosen key is pressed whenever a key is. -/
theorem pressedFrom_pressed (keys : Word) (fuel : Nat) (k : Nibble) (j : Nat) (hj : j < fuel)
    (hp : keys.getLsbD (k + BitVec.ofNat 4 j).toNat = true) :
    keys.getLsbD (pressedFrom keys fuel k).toNat = true := by
  induction fuel generalizing k j with
  | zero => omega
  | succ fuel ih =>
    unfold pressedFrom
    split
    · assumption
    · rename_i hk
      cases j with
      | zero => exact absurd (by simpa using hp) hk
      | succ j =>
        refine ih (k + 1#4) j (by omega) ?_
        rw [← hp]; congr 2
        apply BitVec.eq_of_toNat_eq
        simp only [BitVec.toNat_add, BitVec.toNat_ofNat]
        omega

theorem chosenKey_pressed (keys : Word) (c : Nibble) (h : keys ≠ 0#16) :
    keys.getLsbD (chosenKey keys c).toNat = true := by
  have hex : ∃ k, k < 16 ∧ keys.getLsbD k = true := by
    by_contra hn
    apply h
    apply BitVec.eq_of_getLsbD_eq
    intro i hi
    have : ¬ keys.getLsbD i = true := fun hk => hn ⟨i, hi, hk⟩
    simpa using this
  obtain ⟨k, hk, hp⟩ := hex
  refine pressedFrom_pressed keys 16 c ((k + 16 - c.toNat) % 16) (Nat.mod_lt _ (by decide)) ?_
  have hc := c.isLt
  have hmod : (c.toNat + (k + 16 - c.toNat) % 16 % 2 ^ 4) % 2 ^ 4 = k := by omega
  rw [BitVec.toNat_add, BitVec.toNat_ofNat, hmod]
  exact hp

/-- A choice that names a pressed key is that key. -/
theorem chosenKey_of_pressed (keys : Word) (c : Nibble) (h : keys.getLsbD c.toNat = true) :
    chosenKey keys c = c := by simp [chosenKey, pressedFrom, h]

end Sys2Proof.Machine
end

