-- ==== Sys2Proof/Laws/Display.lean ====
section
/-! SUPPORT. The laws of the display buffer (41_display.md): plotting keeps its canonical form and touches
one pixel; a sprite flips the pixels under its 1 bits and reports a collision iff one of those was on. -/

namespace Sys2Proof.Machine

theorem pixelIndex_lt (px py : Nat) : pixelIndex px py < 2048 := by
  simp only [pixelIndex, Config.dispH, Config.dispW]; omega

/-- Two coordinates name one pixel iff they agree modulo the display's width and height. -/
theorem pixelIndex_eq_iff (a b c d : Nat) : pixelIndex a b = pixelIndex c d ↔ a % 64 = c % 64 ∧ b % 32 = d % 32 := by
  simp only [pixelIndex, Config.dispH, Config.dispW]; omega

theorem Display.wf_nil : Display.wf [] :=
  ⟨Memory.canonical_nil _, fun _ hc => absurd hc List.not_mem_nil⟩

/-- Every byte of a canonical display reads as 0 or 1 (R30). -/
theorem Display.read_bit (d : Display) (h : Display.wf d) (p : Nat) :
    Memory.read d p = 0x00#8 ∨ Memory.read d p = 0x01#8 := by
  by_cases hz : Memory.read d p = unlistedByte
  · exact .inl hz
  · exact .inr (h.2 _ ((Memory.mem_iff_read d h.1.1 (fun c hc => (h.1.2 c hc).2) p _).mpr ⟨rfl, hz⟩))

/-- Writing a 0 or a 1 keeps the display canonical. -/
theorem Display.wf_write (d : Display) (p : Nat) (b : Byte) (hp : p < 2048) (hb : b = 0x00#8 ∨ b = 0x01#8)
    (h : Display.wf d) : Display.wf (Memory.write d p b) := by
  refine ⟨Memory.canonical_write _ d p b hp h.1, fun c hc => ?_⟩
  rcases Memory.mem_write d p b c hc with hc | ⟨rfl, hne⟩
  · exact h.2 c hc
  · exact hb.resolve_left hne

theorem Display.wf_plot (d : Display) (px py : Nat) (b : Bool) (h : Display.wf d) :
    Display.wf (plot d px py b).1 := by
  refine Display.wf_write d _ _ (pixelIndex_lt px py) ?_ h
  rcases Display.read_bit d h (pixelIndex px py) with hr | hr <;> cases b <;> simp [getPixel, hr, flagByte]

theorem Display.wf_plotColumns (d : Display) (x y : Nat) (row : Byte) (cs : List Nat) (h : Display.wf d) :
    Display.wf (plotColumns d x y row cs).1 := by
  induction cs generalizing d with
  | nil => exact h
  | cons c cs ih => exact ih _ (Display.wf_plot d _ _ _ h)

theorem Display.wf_drawSprite (d : Display) (x y : Nat) (rows : List Byte) (h : Display.wf d) :
    Display.wf (drawSprite d x y rows).1 := by
  induction rows generalizing d y with
  | nil => exact h
  | cons r rows ih => exact ih _ _ (Display.wf_plotColumns d x y r _ h)

/-- Plot changes its own pixel only, by XOR (R131). -/
theorem read_plot (d : Display) (px py p : Nat) (b : Bool) (h : Memory.sorted d) :
    Memory.read (plot d px py b).1 p =
      if p = pixelIndex px py then Memory.read d p ^^^ flagByte b else Memory.read d p := by
  simp only [plot, Memory.read_write d _ _ _ h, getPixel]
  split
  · subst p; rfl
  · rfl

theorem sorted_plot (d : Display) (px py : Nat) (b : Bool) (h : Memory.sorted d) :
    Memory.sorted (plot d px py b).1 := Memory.sorted_write d _ _ h

/-- The columns `cs` of one sprite row at (x, y) have a 1 bit on pixel (px, py). -/
def rowCovers (x y : Nat) (row : Byte) (cs : List Nat) (px py : Nat) : Prop :=
  ∃ c ∈ cs, (x + c) % 64 = px % 64 ∧ y % 32 = py % 32 ∧ row.getLsbD (7 - c) = true

theorem sorted_plotColumns (d : Display) (x y : Nat) (row : Byte) (cs : List Nat) (h : Memory.sorted d) :
    Memory.sorted (plotColumns d x y row cs).1 := by
  induction cs generalizing d with
  | nil => exact h
  | cons c cs ih => exact ih _ (sorted_plot d _ _ _ h)

theorem getPixel_plot (d : Display) (ax ay px py : Nat) (b : Bool) (h : Memory.sorted d) :
    getPixel (plot d ax ay b).1 px py =
      if (ax % 64 = px % 64 ∧ ay % 32 = py % 32) ∧ b = true then getPixel d px py ^^^ 0x01#8 else getPixel d px py := by
  rw [getPixel, read_plot d _ _ _ _ h]
  by_cases hk : ax % 64 = px % 64 ∧ ay % 32 = py % 32
  · rw [if_pos ((pixelIndex_eq_iff ax ay px py).mpr hk).symm]
    cases b <;> simp [hk, flagByte, getPixel]
  · rw [if_neg fun h => hk ((pixelIndex_eq_iff ax ay px py).mp h.symm), if_neg fun h => hk h.1]
    rfl

/-- One row flips exactly the pixels under its 1 bits, and reports exactly whether one of those was on. -/
theorem plotColumns_spec (d : Display) (x y : Nat) (row : Byte) (cs : List Nat) (hs : Memory.sorted d)
    (hn : cs.Nodup) (hc : ∀ c ∈ cs, c < 8) (px py : Nat) :
    (rowCovers x y row cs px py → getPixel (plotColumns d x y row cs).1 px py = getPixel d px py ^^^ 0x01#8) ∧
    (¬ rowCovers x y row cs px py → getPixel (plotColumns d x y row cs).1 px py = getPixel d px py) := by
  induction cs generalizing d with
  | nil => exact ⟨fun ⟨c, hc, _⟩ => absurd hc List.not_mem_nil, fun _ => rfl⟩
  | cons c cs ih =>
    obtain ⟨hcn, hn⟩ := List.nodup_cons.mp hn
    obtain ⟨i1, i2⟩ := ih (plot d (x + c) y (row.getLsbD (7 - c))).1 (sorted_plot d _ _ _ hs) hn
      (fun e he => hc e (List.mem_cons_of_mem _ he))
    rw [getPixel_plot _ _ _ _ _ _ hs] at i1 i2
    simp only [plotColumns]
    by_cases hh : ((x + c) % 64 = px % 64 ∧ y % 32 = py % 32) ∧ row.getLsbD (7 - c) = true
    · have ho : ¬ rowCovers x y row cs px py := fun ⟨e, he, hx, _, _⟩ => by
        have := hc c List.mem_cons_self
        have := hc e (List.mem_cons_of_mem _ he)
        have : e = c := by omega
        exact hcn (this ▸ he)
      refine ⟨fun _ => by rw [i2 ho, if_pos hh], fun hk => absurd ⟨c, List.mem_cons_self, hh.1.1, hh.1.2, hh.2⟩ hk⟩
    · rw [if_neg hh] at i1 i2
      refine ⟨fun ⟨e, he, hx, hy, hb⟩ => ?_, fun hk => i2 fun ⟨e, he, h⟩ => hk ⟨e, List.mem_cons_of_mem _ he, h⟩⟩
      rcases List.mem_cons.mp he with rfl | he
      · exact absurd ⟨⟨hx, hy⟩, hb⟩ hh
      · exact i1 ⟨e, he, hx, hy, hb⟩

theorem plotColumns_collision (d : Display) (x y : Nat) (row : Byte) (cs : List Nat) (hs : Memory.sorted d)
    (hn : cs.Nodup) (hc : ∀ c ∈ cs, c < 8) :
    (plotColumns d x y row cs).2 = true ↔
      ∃ px py, rowCovers x y row cs px py ∧ getPixel d px py = 0x01#8 := by
  induction cs generalizing d with
  | nil => exact ⟨fun h => absurd h (by simp [plotColumns]), fun ⟨_, _, ⟨c, hc, _⟩, _⟩ => absurd hc List.not_mem_nil⟩
  | cons c cs ih =>
    obtain ⟨hcn, hn⟩ := List.nodup_cons.mp hn
    have hc' : ∀ e ∈ cs, e < 8 := fun e he => hc e (List.mem_cons_of_mem _ he)
    have ih := ih (plot d (x + c) y (row.getLsbD (7 - c))).1 (sorted_plot d _ _ _ hs) hn hc'
    have hother : ∀ px py, rowCovers x y row cs px py →
        getPixel (plot d (x + c) y (row.getLsbD (7 - c))).1 px py = getPixel d px py := fun px py ⟨e, he, hx, _, _⟩ => by
      rw [getPixel_plot _ _ _ _ _ _ hs, if_neg]
      rintro ⟨⟨h, -⟩, -⟩
      have := hc c List.mem_cons_self
      have := hc' e he
      have : e = c := by omega
      exact hcn (this ▸ he)
    simp only [plotColumns, Bool.or_eq_true, ih]
    constructor
    · rintro (h | ⟨px, py, hr, hg⟩)
      · simp only [plot, Bool.and_eq_true, decide_eq_true_eq] at h
        exact ⟨x + c, y, ⟨c, List.mem_cons_self, rfl, rfl, h.2⟩, h.1⟩
      · obtain ⟨e, he, h⟩ := id hr
        exact ⟨px, py, ⟨e, List.mem_cons_of_mem _ he, h⟩, hother px py hr ▸ hg⟩
    · rintro ⟨px, py, ⟨e, he, hx, hy, hb⟩, hg⟩
      rcases List.mem_cons.mp he with rfl | he
      · refine .inl ?_
        have : getPixel d (x + e) y = getPixel d px py := by
          simp only [getPixel, (pixelIndex_eq_iff (x + e) y px py).mpr ⟨hx, hy⟩]
        simp [plot, hb, this, hg]
      · exact .inr ⟨px, py, ⟨e, he, hx, hy, hb⟩, by rw [hother px py ⟨e, he, hx, hy, hb⟩, hg]⟩

/-- The sprite `rows` at (x, y) has a 1 bit on pixel (px, py). -/
def rowsCover (x y : Nat) (rows : List Byte) (px py : Nat) : Prop :=
  ∃ r, ∃ h : r < rows.length, rowCovers x (y + r) rows[r] [0, 1, 2, 3, 4, 5, 6, 7] px py

theorem sorted_drawSprite (d : Display) (x y : Nat) (rows : List Byte) (h : Memory.sorted d) :
    Memory.sorted (drawSprite d x y rows).1 := by
  induction rows generalizing d y with
  | nil => exact h
  | cons r rows ih => exact ih _ _ (sorted_plotColumns d x y r _ h)

theorem rowsCover_cons (x y : Nat) (row : Byte) (rows : List Byte) (px py : Nat) :
    rowsCover x y (row :: rows) px py ↔
      rowCovers x y row [0, 1, 2, 3, 4, 5, 6, 7] px py ∨ rowsCover x (y + 1) rows px py := by
  constructor
  · rintro ⟨r, h, hc⟩
    cases r with
    | zero => exact .inl hc
    | succ r => exact .inr ⟨r, by simpa using h, by simpa [Nat.add_assoc, Nat.add_comm 1] using hc⟩
  · rintro (h | ⟨r, h, hc⟩)
    · exact ⟨0, by simp, h⟩
    · exact ⟨r + 1, by simpa using h, by simpa [Nat.add_assoc, Nat.add_comm 1] using hc⟩

theorem rowCovers_disjoint {x y : Nat} {row : Byte} {rows : List Byte} (hl : rows.length < 32) {px py : Nat}
    (h : rowCovers x y row [0, 1, 2, 3, 4, 5, 6, 7] px py) : ¬ rowsCover x (y + 1) rows px py := by
  rintro ⟨r, hr, _, _, _, hy, _⟩
  obtain ⟨_, _, _, hy', _⟩ := h
  omega

theorem nodup_columns : ([0, 1, 2, 3, 4, 5, 6, 7] : List Nat).Nodup := by decide
theorem columns_lt : ∀ c ∈ ([0, 1, 2, 3, 4, 5, 6, 7] : List Nat), c < 8 := by decide

/-- A sprite of at most 32 rows flips exactly the pixels under its 1 bits (R131, R132, R133). -/
theorem drawSprite_spec (d : Display) (x y : Nat) (rows : List Byte) (hs : Memory.sorted d) (hl : rows.length ≤ 32)
    (px py : Nat) :
    (rowsCover x y rows px py → getPixel (drawSprite d x y rows).1 px py = getPixel d px py ^^^ 0x01#8) ∧
    (¬ rowsCover x y rows px py → getPixel (drawSprite d x y rows).1 px py = getPixel d px py) := by
  induction rows generalizing d y with
  | nil => exact ⟨fun ⟨_, h, _⟩ => absurd h (Nat.not_lt_zero _), fun _ => rfl⟩
  | cons row rows ih =>
    have hl' : rows.length < 32 := hl
    obtain ⟨p1, p2⟩ := plotColumns_spec d x y row _ hs nodup_columns columns_lt px py
    obtain ⟨i1, i2⟩ := ih _ (y + 1) (sorted_plotColumns d x y row [0, 1, 2, 3, 4, 5, 6, 7] hs) hl'.le
    simp only [rowsCover_cons, drawSprite, not_or]
    refine ⟨?_, fun ⟨h1, h2⟩ => (i2 h2).trans (p2 h1)⟩
    rintro (h | h)
    · rw [i2 (rowCovers_disjoint hl' h), p1 h]
    · rw [i1 h, p2 fun hr => rowCovers_disjoint hl' hr h]

/-- The sprite's collision answer: exactly whether a pixel under one of its 1 bits was on (R131, R132). -/
theorem drawSprite_collision (d : Display) (x y : Nat) (rows : List Byte) (hs : Memory.sorted d)
    (hl : rows.length ≤ 32) :
    (drawSprite d x y rows).2 = true ↔ ∃ px py, rowsCover x y rows px py ∧ getPixel d px py = 0x01#8 := by
  induction rows generalizing d y with
  | nil => exact ⟨fun h => absurd h (by simp [drawSprite]), fun ⟨_, _, ⟨_, h, _⟩, _⟩ => absurd h (Nat.not_lt_zero _)⟩
  | cons row rows ih =>
    have hl' : rows.length < 32 := hl
    have hother : ∀ px py, rowsCover x (y + 1) rows px py →
        getPixel (plotColumns d x y row [0, 1, 2, 3, 4, 5, 6, 7]).1 px py = getPixel d px py := fun px py h =>
      (plotColumns_spec d x y row _ hs nodup_columns columns_lt px py).2 fun hr => rowCovers_disjoint hl' hr h
    simp only [drawSprite, Bool.or_eq_true, plotColumns_collision d x y row _ hs nodup_columns columns_lt,
      ih _ (y + 1) (sorted_plotColumns d x y row [0, 1, 2, 3, 4, 5, 6, 7] hs) hl'.le, rowsCover_cons]
    constructor
    · rintro (⟨px, py, h, hg⟩ | ⟨px, py, h, hg⟩)
      · exact ⟨px, py, .inl h, hg⟩
      · exact ⟨px, py, .inr h, hother px py h ▸ hg⟩
    · rintro ⟨px, py, h | h, hg⟩
      · exact .inl ⟨px, py, h, hg⟩
      · exact .inr ⟨px, py, h, (hother px py h).trans hg⟩

end Sys2Proof.Machine
end

