-- ==== Sys2Proof/Laws/Outcome.lean ====
section
/-! SUPPORT. What ends an instruction (R104): `settle` always answers a next state, either the body's, completed, or the
starting one with the error latched. What push, pop and the fetch can do. -/

namespace Sys2Proof.Machine

@[simp] theorem settle_ok (s t : State) (op : Instr) : settle s op (.ok t) = .next (t.complete op) := rfl

@[simp] theorem settle_error (s : State) (op : Instr) (e : Fault) : settle s op (.error e) = .next (s.takeFatal e) := rfl

@[simp] theorem map_ok {ε α β : Type} (f : α → β) (a : α) : (Except.ok a : Except ε α).map f = .ok (f a) := rfl

@[simp] theorem map_error {ε α β : Type} (f : α → β) (e : ε) : (Except.error e : Except ε α).map f = .error e := rfl

/-- Everything `settle` can do. -/
theorem settle_cases {s t : State} {op : Instr} {body : Except Fault State} (h : settle s op body = .next t) :
    (∃ u, body = .ok u ∧ t = u.complete op) ∨ (∃ e, body = .error e ∧ t = s.takeFatal e) := by
  cases body with
  | ok u => exact .inl ⟨u, rfl, (Host.Outcome.next.inj h).symm⟩
  | error e => exact .inr ⟨e, rfl, (Host.Outcome.next.inj h).symm⟩

/-- An instruction's end is a next state, never a fault or a refusal. -/
theorem settle_next (s : State) (op : Instr) (body : Except Fault State) : ∃ t, settle s op body = .next t := by
  cases body with
  | ok u => exact ⟨_, rfl⟩
  | error e => exact ⟨_, rfl⟩

/-- Everything `push` can do (R28). -/
theorem push_eq (pc : Word) (l : List Word) (v : Word) :
    push pc l v = if l.length = 16 then .error (.stackOverflow pc) else .ok (l ++ [v]) := rfl

theorem pop_nil (pc : Word) : pop pc [] = .error (.stackUnderflow pc) := rfl

/-- The top entry is the last (R27, R29). -/
theorem pop_concat (pc : Word) (l : List Word) (v : Word) : pop pc (l ++ [v]) = .ok (v, l) := by
  simp [pop]

/-- Everything `pop` can do (R29). -/
theorem pop_cases (pc : Word) (l : List Word) :
    (l = [] ∧ pop pc l = .error (.stackUnderflow pc)) ∨ (∃ r v, l = r ++ [v] ∧ pop pc l = .ok (v, r)) := by
  rcases List.eq_nil_or_concat l with rfl | ⟨r, v, rfl⟩
  · exact .inl ⟨rfl, rfl⟩
  · exact .inr ⟨r, v, by simp, by simpa using pop_concat pc r v⟩

/-- Everything the fetch can do (R101). -/
theorem fetchBytes_eq (s : State) :
    fetchBytes s =
      if s.pc.toNat + 1 ≤ 0xFFF then .ok (s.mem.read s.pc.toNat, s.mem.read (s.pc.toNat + 1))
      else .error (.memOob s.pc (firstOutOfRange s.pc.toNat) .fetch) := by
  unfold fetchBytes firstOutOfRange
  split_ifs <;> first | rfl | omega | (congr 2; omega)

/-- A step that fetches runs its instruction (R100). -/
theorem step_eq_exec (s : State) (hf : s.fault = none) (hp : s.pc.toNat + 1 ≤ 0xFFF) :
    step s = withInputTaken
      (exec (decode (joinBytes (s.mem.read s.pc.toNat) (s.mem.read (s.pc.toNat + 1)))) s) := by
  simp [step, hf, fetchBytes_eq, hp]

end Sys2Proof.Machine
end

