-- ==== Sys2Proof/Laws/Exec.lean ====
section
/-! SUPPORT. What every instruction can do, said once: it settles a body (R104), so it ends in a completed state or in the
starting state with an error latched. What completing, latching and taking the input leave unchanged. -/

namespace Sys2Proof.Machine

/-- Every arm of `exec` settles a body. -/
theorem exec_settles (i : Instr) (s : State) : ∃ body, exec i s = settle s i body := by
  cases i
  all_goals simp only [exec, execCls, execRet, execJp, execCall, execSeImm, execSneImm, execSeReg, execLdImm,
    execAddImm, execLdReg, execOr, execAnd, execXor, execAddReg, execSub, execShr, execSubn, execShl, execSneReg, execLdI,
    execJpV0, execRnd, execDrw, execSkp, execSknp, execLdVxDt, execLdVxK, execLdDtVx, execLdStVx, execAddI, execLdFVx,
    execLdBVx, execLdMemVx, execLdVxMem, execUnknown]
  all_goals exact ⟨_, rfl⟩

/-- Everything an instruction can do: complete, or take an error it raised. -/
theorem exec_cases {i : Instr} {s t : State} (h : exec i s = .next t) :
    (∃ u : State, t = u.complete i) ∨ (∃ e, t = s.takeFatal e) := by
  obtain ⟨body, hb⟩ := exec_settles i s
  rcases settle_cases (hb ▸ h) with ⟨u, -, ht⟩ | ⟨e, -, ht⟩
  · exact .inl ⟨u, ht⟩
  · exact .inr ⟨e, ht⟩

theorem Field.same_rfl (f : Field) (s : State) : f.same s s := by
  cases f <;> first | rfl | exact fun _ => rfl

theorem Field.same_trans {f : Field} {s t u : State} (h : f.same s t) (k : f.same t u) : f.same s u := by
  cases f <;> first | exact Eq.trans k h | exact fun a => (k a).trans (h a)

/-- A field other than `last_op` reads in a completed state as in the body's. -/
theorem same_complete {f : Field} (s u : State) (op : Instr) (h : f ≠ .lastOp) :
    f.same s (u.complete op) ↔ f.same s u := by
  cases f <;> first | exact absurd rfl h | exact Iff.rfl

/-- A field other than the latch reads in the state that took an error as before it. -/
theorem same_takeFatal {f : Field} (s : State) (e : Fault) (h : f ≠ .fault) : f.same s (s.takeFatal e) := by
  cases f <;> first | exact absurd rfl h | rfl | exact fun _ => rfl

/-- A field other than `env` reads after the input is taken as before. -/
theorem same_consumeInput {f : Field} (s : State) (h : f ≠ .env) : f.same s s.consumeInput := by
  cases f <;> first | exact absurd rfl h | rfl | exact fun _ => rfl

theorem unchangedExcept_takeFatal (s : State) (e : Fault) : unchangedExcept [.fault] s (s.takeFatal e) :=
  fun _ hf => same_takeFatal s e fun hn => hf (by simp [hn])

theorem unchangedExcept_consumeInput (s : State) : unchangedExcept [.env] s s.consumeInput :=
  fun _ hf => same_consumeInput s fun hn => hf (by simp [hn])

/-- Completion, from the state the instruction answers. -/
theorem completesWith_of_next {i : Instr} {s u : State} {changed : List Field} {P : State → Prop}
    (h : exec i s = .next (u.complete i)) (hu : ∀ f, f ∉ Field.lastOp :: changed → f.same s u)
    (hp : P (u.complete i)) : completesWith i s changed P :=
  ⟨u.complete i, h, rfl, fun f hf => (same_complete s u i fun hn => hf (by simp [hn])).mpr (hu f hf), hp⟩

/-- Raising, from the state the instruction answers. -/
theorem raises_of_next {i : Instr} {s : State} {e : Fault} (h : exec i s = .next (s.takeFatal e)) : raises i s e :=
  ⟨s.takeFatal e, h, rfl, unchangedExcept_takeFatal s e⟩

/-- A step that answers a next state: nothing was latched, and it is the fetch's error taken or the instruction's end,
with the step's input taken. -/
theorem step_cases {s t : State} (h : step s = .next t) :
    s.fault = none ∧
    ((∃ e, fetchBytes s = .error e ∧ t = (s.takeFatal e).consumeInput) ∨
     (∃ hi lo u, fetchBytes s = .ok (hi, lo) ∧ exec (decode (joinBytes hi lo)) s = .next u ∧ t = u.consumeInput)) := by
  unfold step at h
  split at h
  · cases h
  · rename_i hf
    refine ⟨hf, ?_⟩
    split at h
    · rename_i e he
      exact .inl ⟨e, he, (Host.Outcome.next.inj h).symm⟩
    · rename_i hi lo hb
      obtain ⟨body, hs⟩ := exec_settles (decode (joinBytes hi lo)) s
      obtain ⟨u, hu⟩ := settle_next s (decode (joinBytes hi lo)) body
      rw [hs, hu] at h
      exact .inr ⟨hi, lo, u, hb, hs.trans hu, (Host.Outcome.next.inj h).symm⟩

/-- A step whose fetch succeeds and whose instruction answers a next state. -/
theorem step_of_exec {s u : State} {hi lo : Byte} (hf : s.fault = none) (hb : fetchBytes s = .ok (hi, lo))
    (hx : exec (decode (joinBytes hi lo)) s = .next u) : step s = .next u.consumeInput := by
  simp only [step, hf, hb, hx, withInputTaken]

/-- A step whose fetch raises. -/
theorem step_of_fetch_error {s : State} {e : Fault} (hf : s.fault = none) (he : fetchBytes s = .error e) :
    step s = .next (s.takeFatal e).consumeInput := by
  simp only [step, hf, he, withInputTaken]

end Sys2Proof.Machine
end

