-- ==== Sys2Proof/Laws/PerInstr.lean ====
section
/-! SUPPORT. A fact about every instruction as syntax, one lemma per constructor: the top nibble of its word is its
family's (30_encoding.md R11, R74 to R79). -/

namespace Sys2Proof.Laws.TopNibble

/-- The top nibble of an instruction's word selects its family. -/
def Statement (i : Sys2Proof.Instr) : Prop := fieldOp (encode i) = familyOf i

theorem cls : Statement .cls := rfl
theorem ret : Statement .ret := rfl
theorem jp (nnn : Addr12) : Statement (.jp nnn) := fieldOp_nnn _ _
theorem call (nnn : Addr12) : Statement (.call nnn) := fieldOp_nnn _ _
theorem seImm (x : Nibble) (kk : Byte) : Statement (.seImm x kk) := fieldOp_x_kk _ _ _
theorem sneImm (x : Nibble) (kk : Byte) : Statement (.sneImm x kk) := fieldOp_x_kk _ _ _
theorem seReg (x y : Nibble) : Statement (.seReg x y) := fieldOp_x_y_n _ _ _ _
theorem ldImm (x : Nibble) (kk : Byte) : Statement (.ldImm x kk) := fieldOp_x_kk _ _ _
theorem addImm (x : Nibble) (kk : Byte) : Statement (.addImm x kk) := fieldOp_x_kk _ _ _
theorem ldReg (x y : Nibble) : Statement (.ldReg x y) := fieldOp_x_y_n _ _ _ _
theorem or (x y : Nibble) : Statement (.or x y) := fieldOp_x_y_n _ _ _ _
theorem and (x y : Nibble) : Statement (.and x y) := fieldOp_x_y_n _ _ _ _
theorem xor (x y : Nibble) : Statement (.xor x y) := fieldOp_x_y_n _ _ _ _
theorem addReg (x y : Nibble) : Statement (.addReg x y) := fieldOp_x_y_n _ _ _ _
theorem sub (x y : Nibble) : Statement (.sub x y) := fieldOp_x_y_n _ _ _ _
theorem shr (x y : Nibble) : Statement (.shr x y) := fieldOp_x_y_n _ _ _ _
theorem subn (x y : Nibble) : Statement (.subn x y) := fieldOp_x_y_n _ _ _ _
theorem shl (x y : Nibble) : Statement (.shl x y) := fieldOp_x_y_n _ _ _ _
theorem sneReg (x y : Nibble) : Statement (.sneReg x y) := fieldOp_x_y_n _ _ _ _
theorem ldI (nnn : Addr12) : Statement (.ldI nnn) := fieldOp_nnn _ _
theorem jpV0 (nnn : Addr12) : Statement (.jpV0 nnn) := fieldOp_nnn _ _
theorem rnd (x : Nibble) (kk : Byte) : Statement (.rnd x kk) := fieldOp_x_kk _ _ _
theorem drw (x y n : Nibble) : Statement (.drw x y n) := fieldOp_x_y_n _ _ _ _
theorem skp (x : Nibble) : Statement (.skp x) := fieldOp_x_kk _ _ _
theorem sknp (x : Nibble) : Statement (.sknp x) := fieldOp_x_kk _ _ _
theorem ldVxDt (x : Nibble) : Statement (.ldVxDt x) := fieldOp_x_kk _ _ _
theorem ldVxK (x : Nibble) : Statement (.ldVxK x) := fieldOp_x_kk _ _ _
theorem ldDtVx (x : Nibble) : Statement (.ldDtVx x) := fieldOp_x_kk _ _ _
theorem ldStVx (x : Nibble) : Statement (.ldStVx x) := fieldOp_x_kk _ _ _
theorem addI (x : Nibble) : Statement (.addI x) := fieldOp_x_kk _ _ _
theorem ldFVx (x : Nibble) : Statement (.ldFVx x) := fieldOp_x_kk _ _ _
theorem ldBVx (x : Nibble) : Statement (.ldBVx x) := fieldOp_x_kk _ _ _
theorem ldMemVx (x : Nibble) : Statement (.ldMemVx x) := fieldOp_x_kk _ _ _
theorem ldVxMem (x : Nibble) : Statement (.ldVxMem x) := fieldOp_x_kk _ _ _
theorem unknown (w : Word) : Statement (.unknown w) := rfl

end Sys2Proof.Laws.TopNibble
end

