-- ==== Sys2Proof/Tests/Slice0.lean ====
section
/-! SUPPORT. The model's own tests. Expected results are the worked examples and vectors of spec/95_test_vectors.md (named
S, EX, DS, CF, LS, AL below) and the examples of the instruction rules; words are written out from the patterns of R74 to
R79. At the end, a witness that the hypotheses of each obligation can be met together. -/

namespace Sys2Proof.Tests
open Sys2Proof.Machine

/-! ## Well-formedness: the check refuses an UNKNOWN that carries a matched word (R80) -/

theorem test_wf_unknown_cls : Instr.wellFormed (.unknown 0x00E0#16) = false := by decide
theorem test_wf_unknown_ret : Instr.wellFormed (.unknown 0x00EE#16) = false := by decide
theorem test_wf_unknown_family1 : Instr.wellFormed (.unknown 0x1234#16) = false := by decide
theorem test_wf_unknown_family5 : Instr.wellFormed (.unknown 0x5120#16) = false := by decide
theorem test_wf_unknown_family8 : Instr.wellFormed (.unknown 0x812E#16) = false := by decide
theorem test_wf_unknown_family9 : Instr.wellFormed (.unknown 0x9120#16) = false := by decide
theorem test_wf_unknown_skp : Instr.wellFormed (.unknown 0xE09E#16) = false := by decide
theorem test_wf_unknown_sknp : Instr.wellFormed (.unknown 0xEFA1#16) = false := by decide
theorem test_wf_unknown_familyF : Instr.wellFormed (.unknown 0xF007#16) = false := by decide
theorem test_wf_unknown_ffff : Instr.wellFormed (.unknown 0xFFFF#16) = true := by decide

/-! ## Decoding: one word per constructor, written out from its pattern -/

theorem test_decode_cls : decode 0x00E0#16 = .cls := by decide
theorem test_decode_ret : decode 0x00EE#16 = .ret := by decide
theorem test_decode_jp : decode 0x1ABC#16 = .jp 0xABC#12 := by decide
theorem test_decode_call : decode 0x2345#16 = .call 0x345#12 := by decide
theorem test_decode_seImm : decode 0x332A#16 = .seImm 0x3#4 0x2A#8 := by decide
theorem test_decode_sneImm : decode 0x4F80#16 = .sneImm 0xF#4 0x80#8 := by decide
theorem test_decode_seReg : decode 0x5120#16 = .seReg 0x1#4 0x2#4 := by decide
theorem test_decode_ldImm : decode 0x6A2B#16 = .ldImm 0xA#4 0x2B#8 := by decide
theorem test_decode_addImm : decode 0x7101#16 = .addImm 0x1#4 0x01#8 := by decide
theorem test_decode_ldReg : decode 0x8120#16 = .ldReg 0x1#4 0x2#4 := by decide
theorem test_decode_or : decode 0x8341#16 = .or 0x3#4 0x4#4 := by decide
theorem test_decode_and : decode 0x8562#16 = .and 0x5#4 0x6#4 := by decide
theorem test_decode_xor : decode 0x8783#16 = .xor 0x7#4 0x8#4 := by decide
theorem test_decode_addReg : decode 0x89A4#16 = .addReg 0x9#4 0xA#4 := by decide
theorem test_decode_sub : decode 0x8BC5#16 = .sub 0xB#4 0xC#4 := by decide
theorem test_decode_shr : decode 0x8DE6#16 = .shr 0xD#4 0xE#4 := by decide
theorem test_decode_subn : decode 0x8F07#16 = .subn 0xF#4 0x0#4 := by decide
theorem test_decode_shl : decode 0x812E#16 = .shl 0x1#4 0x2#4 := by decide
theorem test_decode_sneReg : decode 0x9AB0#16 = .sneReg 0xA#4 0xB#4 := by decide
theorem test_decode_ldI : decode 0xAFED#16 = .ldI 0xFED#12 := by decide
theorem test_decode_jpV0 : decode 0xB304#16 = .jpV0 0x304#12 := by decide
theorem test_decode_rnd : decode 0xC30F#16 = .rnd 0x3#4 0x0F#8 := by decide
theorem test_decode_drw : decode 0xD12F#16 = .drw 0x1#4 0x2#4 0xF#4 := by decide
theorem test_decode_skp : decode 0xE59E#16 = .skp 0x5#4 := by decide
theorem test_decode_sknp : decode 0xE6A1#16 = .sknp 0x6#4 := by decide
theorem test_decode_ldVxDt : decode 0xF407#16 = .ldVxDt 0x4#4 := by decide
theorem test_decode_ldVxK : decode 0xF30A#16 = .ldVxK 0x3#4 := by decide
theorem test_decode_ldDtVx : decode 0xF615#16 = .ldDtVx 0x6#4 := by decide
theorem test_decode_ldStVx : decode 0xF718#16 = .ldStVx 0x7#4 := by decide
theorem test_decode_addI : decode 0xF81E#16 = .addI 0x8#4 := by decide
theorem test_decode_ldFVx : decode 0xF929#16 = .ldFVx 0x9#4 := by decide
theorem test_decode_ldBVx : decode 0xFA33#16 = .ldBVx 0xA#4 := by decide
theorem test_decode_ldMemVx : decode 0xFB55#16 = .ldMemVx 0xB#4 := by decide
theorem test_decode_ldVxMem : decode 0xFC65#16 = .ldVxMem 0xC#4 := by decide
/-- EX2, EX3, S12: words beside each family's patterns. -/
theorem test_decode_unknown : ([0x0000#16, 0x0123#16, 0x00FF#16, 0x5121#16, 0x8008#16, 0x800F#16, 0x9001#16, 0xE000#16,
    0xF000#16, 0xFFFF#16].all fun w => decode w = .unknown w) = true := by decide

theorem test_decodeBytes_truncated : decodeBytes [0x12#8] = .error .truncated := rfl
theorem test_decodeBytes_rest : decodeBytes [0x12#8, 0x34#8, 0x56#8] = .ok (.jp 0x234#12, [0x56#8]) := rfl
theorem test_decodeTableWord : decodeTableWord 16 0xD12F = some (.drw 0x1#4 0x2#4 0xF#4) := by decide
theorem test_decodeTableWord_wide : decodeTableWord 16 0x10000 = none := by decide
theorem test_encodeBytes : encodeBytes (.jp 0x234#12) = [0x12#8, 0x34#8] := by decide

/-! ## A small state and one step on it -/

/-- The reset state with the word `w` at PC, changed by `f`. -/
def start (w : Nat) (f : State → State := id) : State := f (State.reset.withFetchWord 16 w)

/-- The state after one step, where the step answers a next state. -/
def after (s : State) : Option State :=
  match step s with
  | .next t => some t
  | .fault _ => none
  | .refused _ => none

/-- `p` holds of the state after one step. -/
def afterStep (s : State) (p : State → Bool) : Bool :=
  match after s with
  | some t => p t
  | none => false

/-- The keys pressed, the random byte and the key chosen by the next step. -/
def given (keys : Word) (rnd : Byte) (choice : Nibble) (s : State) : State := s.offer ⟨keys, rnd, choice⟩

/-- Bytes in memory from `a` upward. -/
def poke (a : Nat) (bytes : List Byte) (s : State) : State := (hostWrite s a bytes).1

/-! ## Execution cycle and faults -/

theorem test_ex1_zero_memory : afterStep State.reset (fun t => t.pc = 0x202#16 ∧ t.lastOp = some (.unknown 0x0000#16)) := by
  decide
theorem test_ex4_fetch_high : afterStep (State.reset.setPc 0x0FFF#16)
    (fun t => t.fault = some (.memOob 0x0FFF#16 0x1000 .fetch) ∧ t.pc = 0x0FFF#16) := by decide
theorem test_ex6_fetch_pc_first : afterStep (State.reset.setPc 0x1000#16)
    (fun t => t.fault = some (.memOob 0x1000#16 0x1000 .fetch)) := by decide
theorem test_ex7_latched : step (State.reset.takeFatal (.stackUnderflow 0x200#16)) = .fault (.stackUnderflow 0x200#16) := rfl
theorem test_s12_unknown : afterStep (start 0xFFFF) (fun t => t.pc = 0x202#16 ∧ t.lastOp = some (.unknown 0xFFFF#16) ∧
    t.mem = (start 0xFFFF).mem ∧ t.v = State.reset.v) := by decide

/-! ## Display -/

/-- DS2: both edges wrap. -/
theorem test_ds2_wrap : afterStep (start 0xD011 fun s => poke 0x300 [0xF0#8] (((s.setV 0x0#4 62#8).setV 0x1#4 31#8).setI 0x300#16))
    (fun t => t.disp = [(1984, 1#8), (1985, 1#8), (2046, 1#8), (2047, 1#8)] ∧ t.getV vf = 0#8 ∧ t.drawFlag) := by decide
/-- DS5: an on pixel goes off. -/
theorem test_ds5_collision : afterStep (start 0xD011 fun s => poke 0x300 [0xC0#8] ((s.setDisp [(0, 1#8)]).setI 0x300#16))
    (fun t => t.disp = [(1, 1#8)] ∧ t.getV vf = 1#8) := by decide
/-- DS10, and R134's example. -/
theorem test_ds10_cls : afterStep (start 0x00E0 fun s => s.setDisp [(259, 1#8)])
    (fun t => t.disp = [] ∧ t.drawFlag ∧ t.clearFlag ∧ t.pc = 0x202#16) := by decide

/-! ## Control flow -/

theorem test_cf1_jp : afterStep (start 0x1ABC) (fun t => t.pc = 0x0ABC#16) := by decide
theorem test_cf4_jpV0 : afterStep (start 0xBFFF fun s => s.setV 0x0#4 0xFF#8) (fun t => t.pc = 0x10FE#16) := by decide
theorem test_cf5_call : afterStep (start 0x2300) (fun t => t.pc = 0x300#16 ∧ t.stack = [0x202#16]) := by decide
theorem test_cf6_call_full : afterStep (start 0x2300 fun s => s.setStack (List.replicate 16 0x202#16))
    (fun t => t.fault = some (.stackOverflow 0x200#16) ∧ t.pc = 0x200#16 ∧ t.stack.length = 16) := by decide
theorem test_cf7_ret_empty : afterStep (start 0x00EE) (fun t => t.fault = some (.stackUnderflow 0x200#16)) := by decide
theorem test_cf8_ret : afterStep (start 0x00EE fun s => s.setStack [0x202#16, 0x456#16])
    (fun t => t.pc = 0x456#16 ∧ t.stack = [0x202#16]) := by decide
theorem test_cf9_seImm : afterStep (start 0x3342 fun s => s.setV 0x3#4 0x42#8) (fun t => t.pc = 0x204#16) := by decide
theorem test_cf10_seImm : afterStep (start 0x3342 fun s => s.setV 0x3#4 0x41#8) (fun t => t.pc = 0x202#16) := by decide
theorem test_cf11_sneImm : afterStep (start 0x4342 fun s => s.setV 0x3#4 0x41#8) (fun t => t.pc = 0x204#16) := by decide
theorem test_cf12_sneImm : afterStep (start 0x4342 fun s => s.setV 0x3#4 0x42#8) (fun t => t.pc = 0x202#16) := by decide
theorem test_cf13_seReg : afterStep (start 0x5120 fun s => (s.setV 0x1#4 7#8).setV 0x2#4 7#8) (fun t => t.pc = 0x204#16) := by
  decide
theorem test_cf14_sneReg : afterStep (start 0x9120 fun s => (s.setV 0x1#4 7#8).setV 0x2#4 8#8) (fun t => t.pc = 0x204#16) := by
  decide
theorem test_cf15_sneReg : afterStep (start 0x9120 fun s => (s.setV 0x1#4 7#8).setV 0x2#4 7#8) (fun t => t.pc = 0x202#16) := by
  decide
theorem test_cf16_skp : afterStep (start 0xE59E fun s => given 0x0020#16 0#8 0#4 (s.setV 0x5#4 5#8)) (fun t => t.pc = 0x204#16) := by
  decide
theorem test_cf18_skp_no_such_key : afterStep (start 0xE59E fun s => given 0xFFFF#16 0#8 0#4 (s.setV 0x5#4 0x10#8))
    (fun t => t.pc = 0x202#16) := by decide
theorem test_cf19_sknp_no_such_key : afterStep (start 0xE5A1 fun s => given 0x0000#16 0#8 0#4 (s.setV 0x5#4 0x10#8))
    (fun t => t.pc = 0x204#16) := by decide
theorem test_cf20_sknp : afterStep (start 0xE5A1 fun s => given 0x0020#16 0#8 0#4 (s.setV 0x5#4 5#8)) (fun t => t.pc = 0x202#16) := by
  decide

/-! ## Load and store -/

theorem test_ls1_ldImm : afterStep (start 0x6A2B) (fun t => t.getV 0xA#4 = 0x2B#8) := by decide
theorem test_ls2_ldReg : afterStep (start 0x8120 fun s => s.setV 0x2#4 0x99#8) (fun t => t.getV 0x1#4 = 0x99#8) := by decide
theorem test_ls3_ldI : afterStep (start 0xAFFF) (fun t => t.i = 0x0FFF#16) := by decide
theorem test_ls4_ldVxDt : afterStep (start 0xF407 fun s => s.setDt 0x20#8) (fun t => t.getV 0x4#4 = 0x20#8) := by decide
theorem test_ls5_stall : afterStep (start 0xF30A (given 0x0000#16 0#8 9#4))
    (fun t => t.pc = 0x200#16 ∧ t.getV 0x3#4 = 0#8 ∧ t.lastOp = some (.ldVxK 0x3#4)) := by decide
theorem test_ls7_key_choice : afterStep (start 0xF30A (given 0x0208#16 0#8 9#4)) (fun t => t.pc = 0x202#16 ∧ t.getV 0x3#4 = 9#8) := by
  decide
theorem test_ls8_ldDtVx : afterStep (start 0xF615 fun s => s.setV 0x6#4 0x3C#8) (fun t => t.dt = 0x3C#8 ∧ t.st = 0#8) := by
  decide
theorem test_ls9_ldStVx : afterStep (start 0xF618 fun s => s.setV 0x6#4 0x01#8) (fun t => t.st = 0x01#8 ∧ soundOn t) := by
  decide
theorem test_ls10_ldFVx : afterStep (start 0xF029 fun s => s.setV 0x0#4 0x1A#8) (fun t => t.i = 0x0032#16) := by decide
theorem test_ls11_ldBVx : afterStep (start 0xF733 fun s => (s.setV 0x7#4 234#8).setI 0x300#16)
    (fun t => t.mem.read 0x300 = 2#8 ∧ t.mem.read 0x301 = 3#8 ∧ t.mem.read 0x302 = 4#8 ∧ t.i = 0x300#16) := by decide
theorem test_ls14_ldBVx_fault : afterStep (start 0xF333 fun s => (s.setV 0x3#4 123#8).setI 0x0FFE#16)
    (fun t => t.fault = some (.memOob 0x200#16 0x1000 .write) ∧ t.mem = (start 0xF333).mem) := by decide
theorem test_ls15_ldMemVx : afterStep
    (start 0xF255 fun s => (((s.setV 0x0#4 1#8).setV 0x1#4 2#8).setV 0x2#4 3#8).setI 0x400#16)
    (fun t => t.mem.read 0x400 = 1#8 ∧ t.mem.read 0x402 = 3#8 ∧ t.mem.read 0x403 = 0#8 ∧ t.i = 0x400#16) := by decide
theorem test_ls16_ldMemVx_fault : afterStep (start 0xF355 fun s => (s.setV 0x0#4 1#8).setI 0x0FFE#16)
    (fun t => t.fault = some (.memOob 0x200#16 0x1000 .write) ∧ t.mem = (start 0xF355).mem) := by decide
theorem test_ls17_ldVxMem : afterStep (start 0xF265 fun s => poke 0x400 [0xAA#8, 0xBB#8, 0xCC#8, 0xDD#8] (s.setI 0x400#16))
    (fun t => t.getV 0x0#4 = 0xAA#8 ∧ t.getV 0x2#4 = 0xCC#8 ∧ t.getV 0x3#4 = 0#8 ∧ t.i = 0x400#16) := by decide
theorem test_ls19_ldVxMem_fault : afterStep (start 0xF165 fun s => (s.setV 0x0#4 7#8).setI 0x0FFF#16)
    (fun t => t.fault = some (.memOob 0x200#16 0x1000 .read) ∧ t.getV 0x0#4 = 7#8) := by decide

/-! ## Arithmetic and logic -/

theorem test_al1_addImm : afterStep (start 0x7101 fun s => (s.setV 0x1#4 0xFF#8).setV 0xF#4 0x42#8)
    (fun t => t.getV 0x1#4 = 0#8 ∧ t.getV 0xF#4 = 0x42#8) := by decide
theorem test_s5_addReg : afterStep (start 0x8124 fun s => (s.setV 0x1#4 0xFF#8).setV 0x2#4 0x01#8)
    (fun t => t.getV 0x1#4 = 0#8 ∧ t.getV 0xF#4 = 1#8) := by decide
theorem test_al5_addReg_vf : afterStep (start 0x8F14 fun s => (s.setV 0xF#4 0xFF#8).setV 0x1#4 0x01#8)
    (fun t => t.getV 0xF#4 = 1#8) := by decide
theorem test_al6_addI : afterStep (start 0xF01E fun s => (s.setV 0x0#4 1#8).setI 0x0FFF#16) (fun t => t.i = 0x1000#16) := by
  decide
theorem test_al7_addI_wraps : afterStep (start 0xF01E fun s => (s.setV 0x0#4 2#8).setI 0xFFFF#16) (fun t => t.i = 0x0001#16) := by
  decide
theorem test_al8_or : afterStep (start 0x8121 fun s => ((s.setV 0x1#4 0x0F#8).setV 0x2#4 0xF0#8).setV 0xF#4 0x55#8)
    (fun t => t.getV 0x1#4 = 0xFF#8 ∧ t.getV 0xF#4 = 0x55#8) := by decide
theorem test_al9_and : afterStep (start 0x8122 fun s => ((s.setV 0x1#4 0x0F#8).setV 0x2#4 0x3C#8).setV 0xF#4 0x55#8)
    (fun t => t.getV 0x1#4 = 0x0C#8 ∧ t.getV 0xF#4 = 0x55#8) := by decide
theorem test_al10_xor : afterStep (start 0x8123 fun s => ((s.setV 0x1#4 0xFF#8).setV 0x2#4 0x0F#8).setV 0xF#4 0x55#8)
    (fun t => t.getV 0x1#4 = 0xF0#8 ∧ t.getV 0xF#4 = 0x55#8) := by decide
theorem test_s6_sub : afterStep (start 0x8125 fun s => (s.setV 0x1#4 3#8).setV 0x2#4 5#8)
    (fun t => t.getV 0x1#4 = 0xFE#8 ∧ t.getV 0xF#4 = 0#8) := by decide
theorem test_al11_sub_equal : afterStep (start 0x8125 fun s => (s.setV 0x1#4 5#8).setV 0x2#4 5#8)
    (fun t => t.getV 0x1#4 = 0#8 ∧ t.getV 0xF#4 = 1#8) := by decide
theorem test_al12_subn : afterStep (start 0x8127 fun s => (s.setV 0x1#4 3#8).setV 0x2#4 5#8)
    (fun t => t.getV 0x1#4 = 2#8 ∧ t.getV 0xF#4 = 1#8) := by decide
theorem test_al13_subn : afterStep (start 0x8127 fun s => (s.setV 0x1#4 5#8).setV 0x2#4 3#8)
    (fun t => t.getV 0x1#4 = 0xFE#8 ∧ t.getV 0xF#4 = 0#8) := by decide
theorem test_al15_shr : afterStep (start 0x8126 fun s => (s.setV 0x1#4 2#8).setV 0x2#4 0xFF#8)
    (fun t => t.getV 0x1#4 = 1#8 ∧ t.getV 0xF#4 = 0#8) := by decide
theorem test_al16_shr_vf : afterStep (start 0x8F06 fun s => s.setV 0xF#4 3#8) (fun t => t.getV 0xF#4 = 1#8) := by decide
theorem test_al17_shl : afterStep (start 0x810E fun s => s.setV 0x1#4 0x80#8)
    (fun t => t.getV 0x1#4 = 0#8 ∧ t.getV 0xF#4 = 1#8) := by decide
theorem test_al18_shl : afterStep (start 0x810E fun s => s.setV 0x1#4 0x41#8)
    (fun t => t.getV 0x1#4 = 0x82#8 ∧ t.getV 0xF#4 = 0#8) := by decide
theorem test_al20_rnd : afterStep (start 0xC30F (given 0#16 0xAB#8 0#4)) (fun t => t.getV 0x3#4 = 0x0B#8) := by decide

/-! ## The host's operations -/

theorem test_ex13_tick : (tick ((State.reset.setDt 3#8).setSt 1#8)).dt = 2#8 ∧ (tick ((State.reset.setDt 3#8).setSt 1#8)).st = 0#8 := by
  decide
theorem test_ex14_tick_floor : (tick State.reset).dt = 0#8 ∧ (tick State.reset).st = 0#8 := by decide
theorem test_ds11_get_pixel : getPixel [(2047, 1#8)] 127 63 = 1#8 := by decide
theorem test_ex15_read_mem : readMem 0x1000 State.reset = .fatal (.memOob 0x200#16 0x1000 .read) := by decide
theorem test_fault_codes : [(Fault.memOob 0#16 0 .read).code, (Fault.stackOverflow 0#16).code,
    (Fault.stackUnderflow 0#16).code] = [1, 2, 3] := by decide
theorem test_fontData_length : Config.fontData.length = 80 := by decide

/-! ## Witnesses: concrete states and operands that meet each obligation's hypotheses together, at the boundaries of its
clauses -/

theorem witness_DecodeAfterEncode : Instr.wellFormed (.drw 0xF#4 0xF#4 0xF#4) = true ∧ Instr.wellFormed (.unknown 0xFFFF#16) = true := by
  decide
theorem witness_UnknownIsTheUnknownSpace : unknownSpace 0x5121#16 = true ∧ unknownSpace 0x5120#16 = false := by decide
theorem witness_DecodeAgreesWithOpcodeTable : (∀ u, Instr.shl 0x1#4 0x2#4 ≠ .unknown u) ∧
    0x812E#16 &&& (matchMask (.shl 0x1#4 0x2#4)).2 = (matchMask (.shl 0x1#4 0x2#4)).1 := ⟨nofun, by decide⟩

theorem fetches_start_ret : fetches (start 0x00EE) (encode .ret) := ⟨rfl, by decide, by decide⟩
theorem fetches_start_jp : fetches (start 0x1ABC) (encode (.jp 0xABC#12)) := ⟨rfl, by decide, by decide⟩

theorem witness_StepRunsTheDecodedInstruction : Instr.wellFormed (.jp 0xABC#12) = true ∧
    fetches (start 0x1ABC) (encode (.jp 0xABC#12)) ∧ ∃ t, exec (.jp 0xABC#12) (start 0x1ABC) = .next t :=
  ⟨rfl, fetches_start_jp, _, rfl⟩
/-- Both clauses: a completed step and a fatal one. -/
theorem witness_LastOpRecordsCompletedSteps :
    (fetches (start 0x1ABC) (encode (.jp 0xABC#12)) ∧ ∃ t, step (start 0x1ABC) = .next t ∧ t.fault = none) ∧
    (fetches (start 0x00EE) (encode .ret) ∧ ∃ t, step (start 0x00EE) = .next t ∧ t.fault ≠ none) :=
  ⟨⟨fetches_start_jp, _, rfl, rfl⟩, fetches_start_ret, _, rfl, nofun⟩
theorem witness_FetchChecksBothBytes : 0xFFF < (State.reset.setPc 0x1000#16).pc.toNat ∧
    (State.reset.setPc 0xFFF#16).pc.toNat = 0xFFF ∧ (State.reset.setPc 0xFFE#16).pc.toNat + 1 ≤ 0xFFF := by decide
theorem witness_LatchedFaultStopsEveryStep :
    (State.reset.takeFatal (.stackUnderflow 0x200#16)).fault = some (.stackUnderflow 0x200#16) := rfl
theorem witness_HostStepUsesItsInputs : Instr.wellFormed (.skp 0x5#4) = true ∧ fetches (start 0xE59E) (encode (.skp 0x5#4)) :=
  ⟨rfl, rfl, by decide, by decide⟩
theorem witness_PlacedWordRunsNext : (State.reset.setPc 0xFFE#16).mem.wf ∧ (State.reset.setPc 0xFFE#16).fault = none ∧
    (State.reset.setPc 0xFFE#16).pc.toNat + 1 ≤ 0xFFF := ⟨by decide, rfl, by decide⟩
theorem witness_MemoryReadsBackWhatIsWritten : Memory.wf [(0xFFF, 1#8)] ∧ 0xFFF ≤ 0xFFF ∧ 0xFFF < 0x1000 := by decide
theorem witness_EqualReadsAreEqualMemories : Memory.wf [(0, 0xFF#8), (0xFFF, 1#8)] ∧
    ∀ a, Memory.read [(0, 0xFF#8), (0xFFF, 1#8)] a = Memory.read [(0, 0xFF#8), (0xFFF, 1#8)] a := ⟨by decide, fun _ => rfl⟩
theorem witness_StoreIsSeenByTheNextFetch : (start 0xF155 (State.setI · 0x202#16)).mem.wf ∧
    (start 0xF155 (State.setI · 0x202#16)).fault = none ∧ 1 ≤ (0x1#4).toNat ∧
    (start 0xF155 (State.setI · 0x202#16)).i.toNat + (0x1#4).toNat ≤ 0xFFF ∧
    (start 0xF155 (State.setI · 0x202#16)).i.toNat = (start 0xF155 (State.setI · 0x202#16)).pc.toNat + 2 ∧
    ∃ t, exec (.ldMemVx 0x1#4) (start 0xF155 (State.setI · 0x202#16)) = .next t :=
  ⟨by decide, rfl, by decide, by decide, by decide, _, rfl⟩
theorem witness_ResetSetsPcAndZeroesMemory : 0xFFF ≤ 0xFFF := by decide

/-- CALL 0x300 at 0x200, an on pixel, 16 return addresses, and the overflow latched. -/
def overflowed : State := ((((State.reset.setMem [(0x200, 0x23#8)]).setDisp [(2047, 1#8)]).setStack
  (List.replicate 16 0x202#16)).takeFatal (.stackOverflow 0x200#16))

/-- RET at 0x200. -/
def retAt200 : State := State.reset.setMem [(0x201, 0xEE#8)]

theorem witness_EveryStepKeepsTheInvariant : retAt200.Inv ∧ ∃ t, step retAt200 = .next t :=
  ⟨⟨by decide, by decide, by decide, nofun, by decide, trivial, nofun⟩, _, rfl⟩
theorem witness_EveryScheduleKeepsTheInvariant : overflowed.Inv :=
  ⟨by decide, by decide, by decide, fun r h => by rw [List.eq_of_mem_replicate h]; decide, by decide, ⟨rfl, rfl⟩, nofun⟩
theorem witness_FatalStepCommitsNothing : (start 0x00EE).fault = none ∧
    ∃ t, step (start 0x00EE) = .next t ∧ t.fault = some (.stackUnderflow 0x200#16) := ⟨rfl, _, rfl, rfl⟩
theorem witness_StepRaisesExactlyTheExpectedFault : (start 0x00EE).fault = none ∧
    expectedFault (start 0x00EE) = some (.stackUnderflow 0x200#16) ∧ expectedFault (start 0x1ABC) = none := by decide

theorem witness_InstructionsWriteOnlyTheirFields : ∃ t, exec .cls (start 0x00E0) = .next t := ⟨_, rfl⟩
theorem witness_OnlyNamedRegistersChange : mayWriteReg (.ldVxMem 0xE#4) 0xF#4 = false ∧
    ∃ t, exec (.ldVxMem 0xE#4) (start 0xFE65) = .next t := ⟨rfl, _, rfl⟩
theorem witness_RenderFlagsAreSticky : (start 0x00E0).fault = none ∧
    ∃ t, exec .cls (start 0x00E0) = .next t ∧ t.fault = none := ⟨rfl, _, rfl, rfl⟩
/-- LD Vx, K reads two of the inputs; the random byte differs. -/
theorem witness_InputsAreReadOnlyWhereNamed :
    (given 1#16 9#8 0#4 (start 0xF30A)).env.fontBase = (given 1#16 0#8 0#4 (start 0xF30A)).env.fontBase ∧
    (given 1#16 9#8 0#4 (start 0xF30A)).env.current.keys = (given 1#16 0#8 0#4 (start 0xF30A)).env.current.keys ∧
    (∀ x kk, Instr.ldVxK 0x3#4 ≠ .rnd x kk) ∧
    (given 1#16 9#8 0#4 (start 0xF30A)).env.current.keyChoice = (given 1#16 0#8 0#4 (start 0xF30A)).env.current.keyChoice ∧
    ∃ t, exec (.ldVxK 0x3#4) (given 1#16 0#8 0#4 (start 0xF30A)) = .next t := ⟨rfl, rfl, nofun, rfl, _, rfl⟩
theorem witness_OutputsAreNeverRead : ∃ t, step (start 0x00E0) = .next t := ⟨_, rfl⟩

theorem witness_LoadImmediateAndCopy : (0xE#4 : Nibble) ≠ 0xF#4 ∧ (0xF#4 : Nibble) = 0xF#4 := by decide
theorem witness_WaitForKey : (given 0#16 0#8 0#4 (start 0xF30A)).keys = 0#16 ∧
    (given 0x8000#16 0#8 0xF#4 (start 0xF30A)).keys ≠ 0#16 ∧
    (given 0x8000#16 0#8 0xF#4 (start 0xF30A)).keys.getLsbD (given 0x8000#16 0#8 0xF#4 (start 0xF30A)).keyChoice.toNat = true := by
  decide
theorem witness_StoreDecimalDigits : (start 0xF033).mem.wf ∧ (start 0xF033 (State.setI · 0xFFD#16)).i.toNat + 2 ≤ 0xFFF ∧
    0xFFF < (start 0xF033 (State.setI · 0xFFE#16)).i.toNat + 2 := by decide
theorem witness_StoreRegisters : (start 0xFF55).mem.wf ∧
    (start 0xFF55 (State.setI · 0xFF0#16)).i.toNat + (0xF#4).toNat ≤ 0xFFF ∧
    0xFFF < (start 0xFF55 (State.setI · 0xFF1#16)).i.toNat + (0xF#4).toNat := by decide
theorem witness_LoadRegisters : (start 0xF065 (State.setI · 0xFFF#16)).i.toNat + (0x0#4).toNat ≤ 0xFFF ∧
    0xFFF < (start 0xF165 (State.setI · 0xFFF#16)).i.toNat + (0x1#4).toNat ∧ (0x1#4).toNat ≤ (0x1#4).toNat ∧
    (0x1#4).toNat < (0x2#4).toNat := by decide
theorem witness_AddImmediateNoFlag : (0xF#4 : Nibble) ≠ 0xE#4 := by decide
theorem witness_BitwiseLogic : (0xF#4 : Nibble) ≠ 0xE#4 ∧ (0xF#4 : Nibble) = 0xF#4 ∧ 7 < 8 := by decide
theorem witness_AddWithCarry : (0xE#4 : Nibble) ≠ 0xF#4 ∧ (0x0#4 : Nibble) ≠ 0xE#4 ∧ (0x0#4 : Nibble) ≠ 0xF#4 ∧
    255 < (0xFF#8).toNat + (0x01#8).toNat ∧ ¬ 255 < (0xFE#8).toNat + (0x01#8).toNat := by decide
/-- Equal operands are on the no-borrow side of the flag. -/
theorem witness_SubtractWithNotBorrow : (0xE#4 : Nibble) ≠ 0xF#4 ∧ (0x0#4 : Nibble) ≠ 0xE#4 ∧ (0x0#4 : Nibble) ≠ 0xF#4 ∧
    (5#8).toNat ≤ (5#8).toNat ∧ ¬ (6#8).toNat ≤ (5#8).toNat := by decide
theorem witness_ShiftByOne : (0xE#4 : Nibble) ≠ 0xF#4 ∧ (0x0#4 : Nibble) ≠ 0xE#4 ∧ (0x0#4 : Nibble) ≠ 0xF#4 := by decide
theorem witness_TimerTransfers : (0xF#4 : Nibble) ≠ 0xE#4 := by decide
theorem witness_JumpSetsPc : (0xFFF#12 : Addr12).toNat = 0xFFF := by decide
theorem witness_SkipsOnRegisters : (State.reset.setV 0x3#4 0x42#8).getV 0x3#4 = 0x42#8 ∧
    (State.reset.setV 0x3#4 0x42#8).getV 0x3#4 ≠ 0x43#8 := by decide
theorem witness_RandomUnderMask : (0x00#8 : Byte) ≠ 0xFF#8 ∧ (0x0#4 : Nibble) ≠ 0xF#4 := by decide

theorem witness_CallPushesReturnAddress : (State.reset.setStack (List.replicate 15 0x202#16)).stack.length < 16 ∧
    (State.reset.setStack (List.replicate 16 0x202#16)).stack.length = 16 := by decide
theorem witness_ReturnPopsPc : (State.reset.setStack [0x202#16, 0xFFF#16]).stack = [0x202#16] ++ [0xFFF#16] ∧
    0xFFF ≤ (0xFFF#16).toNat ∧ State.reset.stack = [] := by decide
theorem witness_CallThenReturnComesBack : (State.reset.setStack (List.replicate 15 0x202#16)).stack.length < 16 := by decide
theorem witness_SkipsOnKeys :
    (((given 0x8000#16 0#8 0#4 State.reset).setV 0x5#4 0xF#8).getV 0x5#4).toNat ≤ 15 ∧
    ((given 0x8000#16 0#8 0#4 State.reset).setV 0x5#4 0xF#8).keys.getLsbD 15 = true ∧
    ¬ (((given 0x8000#16 0#8 0#4 State.reset).setV 0x5#4 0x10#8).getV 0x5#4).toNat ≤ 15 := by decide
theorem witness_SelfLoopStays : selfLoop (start 0x1200) := ⟨0x200#12, ⟨rfl, by decide, by decide⟩, by decide⟩

/-- Both clauses at the edge of memory, and n = 0 with I far outside it, which falls under the first alone. -/
theorem witness_DrawFlipsTheSpritePixels : Display.wf [(0, 1#8), (2047, 1#8)] ∧
    (State.reset.setI 0xFF1#16).i.toNat + (0xF#4).toNat ≤ 0x1000 ∧ 0x1000 < (State.reset.setI 0xFF2#16).i.toNat + (0xF#4).toNat ∧
    (0xF#4 : Nibble) ≠ 0x0#4 ∧
    ((0x0#4 : Nibble) = 0x0#4 ∧ 0x1000 < (State.reset.setI 0xFFFF#16).i.toNat + (0x0#4).toNat) := by decide
theorem witness_DrawTwiceRestoresTheDisplay : Display.wf State.reset.disp ∧ (0xE#4 : Nibble) ≠ 0xF#4 ∧
    (State.reset.setI 0xFF1#16).i.toNat + (0xF#4).toNat ≤ 0x1000 ∧ ∀ px py, getPixel State.reset.disp px py = 0x00#8 :=
  ⟨by decide, by decide, by decide, fun _ _ => rfl⟩
theorem witness_DisplayReadPort : Display.wf [(0, 1#8), (2047, 1#8)] ∧ 2047 < 2048 := by decide
theorem witness_FlagResetAndReads : 0xFFF ≤ 0xFFF ∧ 0xFFF < 0x1000 := by decide
theorem witness_LoadCopiesTheProgram : State.reset.mem.wf ∧ (List.replicate 3584 0xAA#8).length ≤ 3584 ∧
    3584 < (List.replicate 3585 0xAA#8).length := ⟨by decide, (by rw [List.length_replicate]), (by rw [List.length_replicate]; decide)⟩
/-- FONT_BASE 0xFB0 is the highest one whose glyphs fit. -/
theorem witness_FontPointerFindsTheGlyph : State.reset.mem.wf ∧
    ({ State.reset with env := { State.reset.env with fontBase := 0xFB0#16 } } : State).env.fontBase.toNat + 80 ≤ 0x1000 := by
  decide

end Sys2Proof.Tests
end

section
/-! The decoder against the table of unknown words (30_encoding.md R80), family by family; what `decode` gives is
well-formed, and decoding an encoded instruction gives it back. -/

namespace Sys2Proof

/-- `i` is what R80's table asks of the word `w`: UNKNOWN with the word exactly where `w` is in the table, else a
well-formed instruction. -/
def DecodesWell (w : Word) (i : Instr) : Prop :=
  if unknownSpace w = true then i = .unknown w else i.wellFormed = true

theorem DecodesWell.of_unknown {w : Word} (h : unknownSpace w = true) : DecodesWell w (.unknown w) := by
  simp [DecodesWell, h]

theorem DecodesWell.of_matched {w : Word} {i : Instr} (h : unknownSpace w = false) (hi : i.wellFormed = true) :
    DecodesWell w i := by
  simp [DecodesWell, h, hi]

/-! In each family the last branch's exclusions are implications to `False`; `imp_false` makes them the negations simp and
omega read. -/

section
variable (w : Word)

theorem decodeFamily0_decodesWell (hop : w.toNat / 4096 = 0) : DecodesWell w (decodeFamily0 w) := by
  have hn : w.toNat = (fieldNnn w).toNat := by rw [fieldNnn_toNat]; omega
  have hop : (fieldNnn w).toNat / 4096 = 0 := hn ▸ hop
  unfold decodeFamily0
  split
  case h_3 => refine .of_unknown ?_; simp only [imp_false] at *; simp [unknownSpace, *]
  all_goals refine .of_matched ?_ rfl; simp [unknownSpace, *]

theorem decodeRegSkip_decodesWell (skip : Nibble → Nibble → Instr) (hs : ∀ x y, (skip x y).wellFormed = true)
    (hop : w.toNat / 4096 = 5 ∨ w.toNat / 4096 = 9) : DecodesWell w (decodeRegSkip skip w) := by
  have hn := (fieldN_toNat w).symm
  unfold decodeRegSkip
  split
  · refine .of_matched ?_ (hs _ _); rcases hop with hop | hop <;> simp [unknownSpace, *]
  · refine .of_unknown ?_; simp only [imp_false] at *; rcases hop with hop | hop <;> simp [unknownSpace, *]

theorem decodeFamily8_decodesWell (hop : w.toNat / 4096 = 8) : DecodesWell w (decodeFamily8 w) := by
  have hn := (fieldN_toNat w).symm
  have hlt := (fieldN w).isLt
  unfold decodeFamily8
  split
  case h_10 => refine .of_unknown ?_; simp only [imp_false] at *; simp [unknownSpace, hop, hn]; omega
  all_goals refine .of_matched ?_ rfl; simp [unknownSpace, *]

theorem decodeFamilyE_decodesWell (hop : w.toNat / 4096 = 14) : DecodesWell w (decodeFamilyE w) := by
  have hn := (fieldKk_toNat w).symm
  unfold decodeFamilyE
  split
  case h_3 => refine .of_unknown ?_; simp only [imp_false] at *; simp [unknownSpace, *]
  all_goals refine .of_matched ?_ rfl; simp [unknownSpace, *]

theorem decodeFamilyF_decodesWell (hop : w.toNat / 4096 = 15) : DecodesWell w (decodeFamilyF w) := by
  have hn := (fieldKk_toNat w).symm
  unfold decodeFamilyF
  split
  case h_10 => refine .of_unknown ?_; simp only [imp_false] at *; simp [unknownSpace, *]
  all_goals refine .of_matched ?_ rfl; simp [unknownSpace, *]

/-- The decoder agrees with R80's table on every word. -/
theorem decode_decodesWell : DecodesWell w (decode w) := by
  have hop := (fieldOp_toNat w).symm
  have hlt := (fieldOp w).isLt
  unfold decode
  split
  case h_1 h => exact decodeFamily0_decodesWell w (hop.trans h)
  case h_6 h => exact decodeRegSkip_decodesWell w _ (fun _ _ => rfl) (.inl (hop.trans h))
  case h_9 h => exact decodeFamily8_decodesWell w (hop.trans h)
  case h_10 h => exact decodeRegSkip_decodesWell w _ (fun _ _ => rfl) (.inr (hop.trans h))
  case h_15 h => exact decodeFamilyE_decodesWell w (hop.trans h)
  case h_16 => exact decodeFamilyF_decodesWell w (by simp only [imp_false] at *; omega)
  all_goals refine .of_matched ?_ rfl; simp [unknownSpace, *]

/-- Every word of the table decodes to UNKNOWN with the word (R80). -/
theorem decode_of_unknownSpace (h : unknownSpace w = true) : decode w = .unknown w := by
  simpa [DecodesWell, h] using decode_decodesWell w

/-- Decoding always gives an instruction value (R73, R81). -/
theorem decode_wellFormed : (decode w).wellFormed = true := by
  cases h : unknownSpace w with
  | true => rw [decode_of_unknownSpace w h]; exact h
  | false => simpa [DecodesWell, h] using decode_decodesWell w

end

/-- Decoding an encoded instruction gives it back (R81). -/
theorem decode_encode (i : Instr) (h : i.wellFormed = true) : decode (encode i) = i := by
  cases i
  case unknown w => exact decode_of_unknownSpace w h
  case cls | ret => rfl
  all_goals simp [encode, decode, decodeRegSkip, decodeFamily8, decodeFamilyE, decodeFamilyF]

end Sys2Proof
end

section
/-! What an instruction can do to the state, said once for all 35 of them (10_state.md R38, 40_execution_cycle.md R104,
R105): `Effect` lists the shapes a completed instruction's state can have, and `exec_ends` shows that every instruction
completes in one of them or takes an error that is precise. The frame, the registers and the invariant follow by cases
on the shape. -/

namespace Sys2Proof.Machine

/-- `u` is what the body of the instruction `i` makes of `s`. Each shape says which fields `i` writes (R38, R105) and what
the invariant needs to know of the values written. -/
inductive Effect (i : Instr) (s : State) : State → Prop
  /-- Jumps, skips and UNKNOWN: from a PC that could be fetched, one at most 0x10FE (R24). -/
  | control (p : Word) (hw : writes i = [.pc]) (hp : s.pc.toNat ≤ 0xFFE → p.toNat ≤ 0x10FE) : Effect i s (s.setPc p)
  /-- LD Vx, K with no key pressed (R111). -/
  | stalled (hw : writes i = [.pc, .v]) : Effect i s s
  /-- New register values, the same outside the named destinations (R22). -/
  | registers (v : Vector Byte 16) (hw : writes i = [.pc, .v])
      (hr : ∀ r, mayWriteReg i r = false → (s.setRegs v).getV r = s.getV r) : Effect i s (s.advance.setRegs v)
  | index (w : Word) (hw : writes i = [.pc, .i]) : Effect i s (s.advance.setI w)
  | delayTimer (b : Byte) (hw : writes i = [.pc, .dt]) : Effect i s (s.advance.setDt b)
  | soundTimer (b : Byte) (hw : writes i = [.pc, .st]) : Effect i s (s.advance.setSt b)
  /-- Fx33 and Fx55: bytes stored within memory (R51, R53). -/
  | stored (a : Nat) (bs : List Byte) (hw : writes i = [.pc, .mem]) (ha : a + bs.length ≤ 0x1000) :
      Effect i s (s.advance.setMem (s.mem.writeList a bs))
  /-- CALL with room on the stack (R28, R153). -/
  | called (nnn : Addr12) (hw : writes i = [.pc, .stack]) (hl : s.stack.length ≠ 16) :
      Effect i s ((s.setStack (s.stack ++ [s.pc + 2#16])).setPc (zextAddr nnn))
  /-- RET from a non-empty stack (R29, R150). -/
  | returned (l : List Word) (p : Word) (hw : writes i = [.pc, .stack]) (hl : s.stack = l ++ [p]) :
      Effect i s ((s.setStack l).setPc p)
  /-- CLS (R134). -/
  | cleared (hw : writes i = [.pc, .disp, .drawFlag, .clearFlag]) :
      Effect i s ((s.advance.setDisp clearDisplay).setFlags true true)
  /-- DRW (R135): a sprite drawn, the collision in VF alone. -/
  | drawn (x y : Nat) (rows : List Byte) (b : Byte) (hw : writes i = [.pc, .v, .disp, .drawFlag])
      (hr : ∀ r, mayWriteReg i r = false → r ≠ vf) :
      Effect i s (((s.advance.setDisp (drawSprite s.disp x y rows).1).setV vf b).setFlags true s.clearFlag)

/-- How an instruction ends (R104): completed, in one of the shapes of `Effect`, or with a precise error taken (R245). -/
def Ends (i : Instr) (s t : State) : Prop :=
  (∃ u, Effect i s u ∧ t = u.complete i) ∨ ∃ e, t = s.takeFatal e ∧ faultPrecise (s.takeFatal e)

/-! ### From a settled body to its end -/

section
variable {i : Instr} {s t u : State}

theorem ends_of_settle_ok (he : Effect i s u) (h : settle s i (.ok u) = .next t) : Ends i s t :=
  .inl ⟨u, he, (Host.Outcome.next.inj h).symm⟩

theorem ends_of_settle_error {e : Fault} (he : faultPrecise (s.takeFatal e)) (h : settle s i (.error e) = .next t) :
    Ends i s t :=
  .inr ⟨e, (Host.Outcome.next.inj h).symm, he⟩

theorem Effect.of_setV {x : Nibble} (b : Byte) (hw : writes i = [.pc, .v])
    (hr : ∀ r, mayWriteReg i r = false → r ≠ x) : Effect i s (s.advance.setV x b) :=
  .registers _ hw fun r h => getV_setV_other s x r b (hr r h)

theorem Effect.of_setResultAndFlag {x : Nibble} (b : Byte) (f : Bool) (hw : writes i = [.pc, .v])
    (hr : ∀ r, mayWriteReg i r = false → r ≠ x ∧ r ≠ vf) : Effect i s (s.advance.setResultAndFlag x b f) :=
  .registers _ hw fun r h => setResultAndFlag_other s x r b f (hr r h).1 (hr r h).2

theorem advance_pc_le (h : s.pc.toNat ≤ 0xFFE) : s.advance.pc.toNat ≤ 0x10FE := by
  simp only [advance_pc]; bv_omega

/-- The common skip (R154). -/
theorem Effect.of_skipIf (c : Bool) (hw : writes i = [.pc]) : Effect i s (skipIf c s) := by
  cases c with
  | false => exact .control _ hw advance_pc_le
  | true => exact .control _ hw fun h => by simp only [advance_pc]; bv_omega

theorem lt_firstOutOfRange (a : Nat) : 0xFFF < firstOutOfRange a := by
  unfold firstOutOfRange; omega

/-- A body that goes on from a block read: all `n` bytes, or a precise error. -/
theorem ends_of_load {a n : Nat} {f : List Byte → State} (hok : ∀ bytes, bytes.length = n → Effect i s (f bytes))
    (h : settle s i ((memReadBlock s.pc s.mem a n).map f) = .next t) : Ends i s t := by
  rw [memReadBlock_eq] at h
  split at h
  · exact ends_of_settle_ok (hok _ (by simp)) h
  · exact ends_of_settle_error (e := .memOob s.pc (firstOutOfRange a) .read) ⟨rfl, lt_firstOutOfRange a⟩ h

/-- A body that stores a non-empty block: all of it within memory, or a precise error. -/
theorem ends_of_store {a : Nat} {bs : List Byte} (hw : writes i = [.pc, .mem]) (hbs : bs ≠ [])
    (h : settle s i ((memWriteBlock s.pc s.mem a bs).map s.advance.setMem) = .next t) : Ends i s t := by
  rw [memWriteBlock_eq] at h
  split at h
  case isTrue hfit => exact ends_of_settle_ok (.stored a bs hw (hfit.resolve_left hbs)) h
  case isFalse =>
    exact ends_of_settle_error (e := .memOob s.pc (firstOutOfRange a) .write) ⟨rfl, lt_firstOutOfRange a⟩ h

end

theorem zextAddr_toNat (nnn : Addr12) : (zextAddr nnn).toNat = nnn.toNat :=
  BitVec.toNat_setWidth_of_le (by decide)

theorem zextByte_toNat (b : Byte) : (zextByte b).toNat = b.toNat :=
  BitVec.toNat_setWidth_of_le (by decide)

/-- Bnnn sets PC to at most 0xFFF + 0xFF (R24, R152). -/
theorem jpV0_target_le (nnn : Addr12) (b : Byte) : (zextAddr nnn + zextByte b).toNat ≤ 0x10FE := by
  have := nnn.isLt
  have := b.isLt
  rw [BitVec.toNat_add, zextAddr_toNat, zextByte_toNat]
  omega

theorem zextAddr_le (nnn : Addr12) : (zextAddr nnn).toNat ≤ 0x10FE := by
  have := nnn.isLt
  rw [zextAddr_toNat]
  omega

/-- A register outside V0 to Vx is no destination of Fx65 (R191). -/
theorem loadRegs_frame (s : State) (bytes : List Byte) (r : Nibble) (h : bytes.length ≤ r.toNat) :
    (s.setRegs (loadRegs s.v 0 bytes)).getV r = s.getV r := by
  simp only [State.getV, setRegs_v, loadRegs_getElem]
  exact dif_neg (by omega)

/-- Every instruction ends in one of the shapes of `Effect`, or takes a precise error. -/
theorem exec_ends {i : Instr} {s t : State} (h : exec i s = .next t) : Ends i s t := by
  cases i with
  | cls => exact ends_of_settle_ok (.cleared rfl) h
  | ret =>
    simp only [exec, execRet] at h
    rcases pop_cases s.pc s.stack with ⟨hs, hp⟩ | ⟨l, p, hs, hp⟩ <;> rw [hp] at h
    · exact ends_of_settle_error (e := .stackUnderflow s.pc) ⟨rfl, hs⟩ h
    · exact ends_of_settle_ok (.returned l p rfl hs) h
  | jp nnn => exact ends_of_settle_ok (.control _ rfl fun _ => zextAddr_le nnn) h
  | call nnn =>
    simp only [exec, execCall, push_eq] at h
    split at h
    case isTrue hfull => exact ends_of_settle_error (e := .stackOverflow s.pc) ⟨rfl, hfull⟩ h
    case isFalse hroom => exact ends_of_settle_ok (.called nnn rfl hroom) h
  | seImm x kk => exact ends_of_settle_ok (.of_skipIf _ rfl) h
  | sneImm x kk => exact ends_of_settle_ok (.of_skipIf _ rfl) h
  | seReg x y => exact ends_of_settle_ok (.of_skipIf _ rfl) h
  | ldImm x kk => exact ends_of_settle_ok (.of_setV _ rfl fun r => of_decide_eq_false) h
  | addImm x kk => exact ends_of_settle_ok (.of_setV _ rfl fun r => of_decide_eq_false) h
  | ldReg x y => exact ends_of_settle_ok (.of_setV _ rfl fun r => of_decide_eq_false) h
  | or x y => exact ends_of_settle_ok (.of_setV _ rfl fun r => of_decide_eq_false) h
  | and x y => exact ends_of_settle_ok (.of_setV _ rfl fun r => of_decide_eq_false) h
  | xor x y => exact ends_of_settle_ok (.of_setV _ rfl fun r => of_decide_eq_false) h
  | addReg x y => exact ends_of_settle_ok (.of_setResultAndFlag _ _ rfl fun r => by simp [mayWriteReg]) h
  | sub x y => exact ends_of_settle_ok (.of_setResultAndFlag _ _ rfl fun r => by simp [mayWriteReg]) h
  | shr x y => exact ends_of_settle_ok (.of_setResultAndFlag _ _ rfl fun r => by simp [mayWriteReg]) h
  | subn x y => exact ends_of_settle_ok (.of_setResultAndFlag _ _ rfl fun r => by simp [mayWriteReg]) h
  | shl x y => exact ends_of_settle_ok (.of_setResultAndFlag _ _ rfl fun r => by simp [mayWriteReg]) h
  | sneReg x y => exact ends_of_settle_ok (.of_skipIf _ rfl) h
  | ldI nnn => exact ends_of_settle_ok (.index _ rfl) h
  | jpV0 nnn => exact ends_of_settle_ok (.control _ rfl fun _ => jpV0_target_le nnn _) h
  | rnd x kk => exact ends_of_settle_ok (.of_setV _ rfl fun r => of_decide_eq_false) h
  | drw x y n =>
    exact ends_of_load (fun rows _ => .drawn _ _ rows _ rfl fun r => of_decide_eq_false) h
  | skp x => exact ends_of_settle_ok (.of_skipIf _ rfl) h
  | sknp x => exact ends_of_settle_ok (.of_skipIf _ rfl) h
  | ldVxDt x => exact ends_of_settle_ok (.of_setV _ rfl fun r => of_decide_eq_false) h
  | ldVxK x =>
    refine ends_of_settle_ok ?_ h
    split
    · exact .stalled rfl
    · exact .of_setV _ rfl fun r => of_decide_eq_false
  | ldDtVx x => exact ends_of_settle_ok (.delayTimer _ rfl) h
  | ldStVx x => exact ends_of_settle_ok (.soundTimer _ rfl) h
  | addI x => exact ends_of_settle_ok (.index _ rfl) h
  | ldFVx x => exact ends_of_settle_ok (.index _ rfl) h
  | ldBVx x => exact ends_of_store rfl (List.cons_ne_nil _ _) h
  | ldMemVx x => exact ends_of_store rfl (List.ne_nil_of_length_pos (by rw [regBlock_length]; omega)) h
  | ldVxMem x =>
    refine ends_of_load (fun bytes hb => .registers _ rfl fun r hr => loadRegs_frame s bytes r ?_) h
    rw [hb]
    exact Nat.lt_of_not_le (of_decide_eq_false hr)
  | unknown w => exact ends_of_settle_ok (.control _ rfl advance_pc_le) h

/-! ### The frame of a completed instruction -/

section
variable {s t u : State} {changed more : List Field}

theorem unchangedExcept.mono (h : unchangedExcept changed s t) (hc : changed ⊆ more) : unchangedExcept more s t :=
  fun f hf => h f fun hn => hf (hc hn)

theorem unchangedExcept.trans (h : unchangedExcept changed s t) (k : unchangedExcept more t u) :
    unchangedExcept (changed ++ more) s u := fun f hf =>
  Field.same_trans (h f fun hn => hf (List.mem_append_left _ hn)) (k f fun hn => hf (List.mem_append_right _ hn))

theorem unchangedExcept_refl (s : State) (changed : List Field) : unchangedExcept changed s s :=
  fun f _ => f.same_rfl s

end

section
variable (s : State)

theorem unchangedExcept_setPc (p : Word) : unchangedExcept [.pc] s (s.setPc p) :=
  fun f hf => by cases f <;> simp_all [Field.same]

theorem unchangedExcept_advance : unchangedExcept [.pc] s s.advance := unchangedExcept_setPc s _

theorem unchangedExcept_setI (w : Word) : unchangedExcept [.i] s (s.setI w) :=
  fun f hf => by cases f <;> simp_all [Field.same]

theorem unchangedExcept_setDt (b : Byte) : unchangedExcept [.dt] s (s.setDt b) :=
  fun f hf => by cases f <;> simp_all [Field.same]

theorem unchangedExcept_setSt (b : Byte) : unchangedExcept [.st] s (s.setSt b) :=
  fun f hf => by cases f <;> simp_all [Field.same]

theorem unchangedExcept_setRegs (v : Vector Byte 16) : unchangedExcept [.v] s (s.setRegs v) :=
  fun f hf => by cases f <;> simp_all [Field.same]

theorem unchangedExcept_setV (x : Nibble) (b : Byte) : unchangedExcept [.v] s (s.setV x b) :=
  unchangedExcept_setRegs s _

theorem unchangedExcept_setMem (m : Memory) : unchangedExcept [.mem] s (s.setMem m) :=
  fun f hf => by cases f <;> simp_all [Field.same]

theorem unchangedExcept_setStack (l : List Word) : unchangedExcept [.stack] s (s.setStack l) :=
  fun f hf => by cases f <;> simp_all [Field.same]

theorem unchangedExcept_setDisp (d : Display) : unchangedExcept [.disp] s (s.setDisp d) :=
  fun f hf => by cases f <;> simp_all [Field.same]

theorem unchangedExcept_setFlags (draw clear : Bool) :
    unchangedExcept [.drawFlag, .clearFlag] s (s.setFlags draw clear) :=
  fun f hf => by cases f <;> simp_all [Field.same]

/-- With the clear flag given back as it was, only the draw flag changes (R105). -/
theorem unchangedExcept_setDrawFlag (draw : Bool) : unchangedExcept [.drawFlag] s (s.setFlags draw s.clearFlag) :=
  fun f hf => by cases f <;> simp_all [Field.same]

theorem unchangedExcept_complete (op : Instr) : unchangedExcept [.lastOp] s (s.complete op) :=
  fun f hf => by cases f <;> simp_all [Field.same]

end

/-- A completed instruction leaves every field alone that it does not write (R38, R105). -/
theorem Effect.frame {i : Instr} {s u : State} (he : Effect i s u) : unchangedExcept (writes i) s u := by
  have hadv := unchangedExcept_advance s
  cases he with
  | control p hw _ => exact hw ▸ unchangedExcept_setPc s p
  | stalled hw => exact unchangedExcept_refl s _
  | registers v hw _ => exact hw ▸ hadv.trans (unchangedExcept_setRegs _ v)
  | index w hw => exact hw ▸ hadv.trans (unchangedExcept_setI _ w)
  | delayTimer b hw => exact hw ▸ hadv.trans (unchangedExcept_setDt _ b)
  | soundTimer b hw => exact hw ▸ hadv.trans (unchangedExcept_setSt _ b)
  | stored a bs hw _ => exact hw ▸ hadv.trans (unchangedExcept_setMem _ _)
  | called nnn hw _ =>
    exact hw ▸ ((unchangedExcept_setStack s _).trans (unchangedExcept_setPc _ _)).mono (by decide)
  | returned l p hw _ =>
    exact hw ▸ ((unchangedExcept_setStack s _).trans (unchangedExcept_setPc _ _)).mono (by decide)
  | cleared hw => exact hw ▸ (hadv.trans (unchangedExcept_setDisp _ _)).trans (unchangedExcept_setFlags _ _ _)
  | drawn x y rows b hw _ =>
    exact hw ▸ (((hadv.trans (unchangedExcept_setDisp _ _)).trans (unchangedExcept_setV _ vf b)).trans
      (unchangedExcept_setDrawFlag _ _)).mono (by decide)

/-- No instruction's own effect touches the latch, the record or what is outside the core (R33, R106, R109). -/
theorem not_mem_writes (i : Instr) : Field.fault ∉ writes i ∧ Field.lastOp ∉ writes i ∧ Field.env ∉ writes i := by
  cases i <;> simp [writes]

theorem Effect.fault_eq {i : Instr} {s u : State} (he : Effect i s u) : u.fault = s.fault :=
  he.frame .fault (not_mem_writes i).1

/-- Whatever way an instruction ends, only its fields, the record and the latch can differ. -/
theorem exec_frame {i : Instr} {s t : State} (h : exec i s = .next t) :
    unchangedExcept (.lastOp :: .fault :: writes i) s t := by
  rcases exec_ends h with ⟨u, he, rfl⟩ | ⟨e, rfl, -⟩
  · exact (he.frame.trans (unchangedExcept_complete u i)).mono (by simp [List.subset_def]; tauto)
  · exact (unchangedExcept_takeFatal s e).mono (by simp)

end Sys2Proof.Machine

open Sys2Proof Sys2Proof.Machine

/-- Settles O22, by the frame of each shape of `Effect`. -/
theorem instructionsWriteOnlyTheirFields : Obligations.InstructionsWriteOnlyTheirFields :=
  fun _ _ _ h => exec_frame h
end

section
/-! What a completed instruction does to the registers, the render flags and the record (10_state.md R22, R31, R32), and
the host's step on its inputs (R36). -/

namespace Sys2Proof.Machine

section
variable {i : Instr} {s t u : State}

/-- Only the named destinations change (R22). -/
theorem Effect.getV_eq (he : Effect i s u) {r : Nibble} (hr : mayWriteReg i r = false) : u.getV r = s.getV r := by
  cases he with
  | registers v _ hv => exact hv r hr
  | drawn x y rows b _ hv => exact getV_setV_other (s.advance.setDisp _) vf r b (hv r hr)
  | _ => rfl

/-- CLS and DRW alone set the draw flag; nothing clears it (R31, R105). -/
theorem Effect.drawFlag_iff (he : Effect i s u) :
    u.drawFlag = true ↔ s.drawFlag = true ∨ Field.drawFlag ∈ writes i := by
  cases he <;> simp [*]

/-- CLS alone sets the clear flag; nothing clears it (R31, R105). -/
theorem Effect.clearFlag_iff (he : Effect i s u) :
    u.clearFlag = true ↔ s.clearFlag = true ∨ Field.clearFlag ∈ writes i := by
  cases he <;> simp [*]

theorem drawFlag_mem_writes_iff (i : Instr) :
    Field.drawFlag ∈ writes i ↔ i = .cls ∨ ∃ x y n, i = .drw x y n := by
  cases i <;> simp [writes]

theorem clearFlag_mem_writes_iff (i : Instr) : Field.clearFlag ∈ writes i ↔ i = .cls := by
  cases i <;> simp [writes]

/-- With no fault latched before, the latch afterwards tells how an instruction ended, and so does `last_op` (R104,
R106). -/
theorem Ends.completed_or_fatal (h : Ends i s t) (hf : s.fault = none) :
    (t.fault = none ∧ ∃ u, Effect i s u ∧ t = u.complete i) ∨ (t.fault ≠ none ∧ ∃ e, t = s.takeFatal e) := by
  rcases h with ⟨u, he, rfl⟩ | ⟨e, rfl, -⟩
  · exact .inl ⟨he.fault_eq.trans hf, u, he, rfl⟩
  · exact .inr ⟨by simp, e, rfl⟩

/-- The step on a fetched word runs its instruction, then takes its input (R100). -/
theorem step_of_fetches {w : Word} (hw : fetches s w) : step s = withInputTaken (exec (decode w) s) := by
  obtain ⟨hf, hp, rfl⟩ := hw
  exact step_eq_exec s hf hp

theorem exec_next (i : Instr) (s : State) : ∃ t, exec i s = .next t := by
  obtain ⟨body, hb⟩ := exec_settles i s
  exact hb ▸ settle_next s i body

end

end Sys2Proof.Machine

open Sys2Proof Sys2Proof.Machine

/-- Settles O23: of the shapes of `Effect`, two write registers. -/
theorem onlyNamedRegistersChange : Obligations.OnlyNamedRegistersChange := by
  intro i s t r h hr
  rcases exec_ends h with ⟨u, he, rfl⟩ | ⟨e, rfl, -⟩
  · exact he.getV_eq hr
  · rfl

/-- Settles O24: a completed instruction is one of the shapes of `Effect`. -/
theorem renderFlagsAreSticky : Obligations.RenderFlagsAreSticky := by
  intro i s t hs h ht
  rcases (exec_ends h).completed_or_fatal hs with ⟨-, u, he, rfl⟩ | ⟨hfatal, -⟩
  · rw [← drawFlag_mem_writes_iff, ← clearFlag_mem_writes_iff]
    exact ⟨he.drawFlag_iff, he.clearFlag_iff⟩
  · exact absurd ht hfatal

/-- Settles O25: the latch tells a completed step from a fatal one. -/
theorem lastOpRecordsCompletedSteps : Obligations.LastOpRecordsCompletedSteps := by
  intro s t w hw h
  obtain ⟨r, hr⟩ := exec_next (decode w) s
  rw [step_of_fetches hw, hr] at h
  obtain rfl := Host.Outcome.next.inj h
  rcases (exec_ends hr).completed_or_fatal hw.1 with ⟨hf, u, -, rfl⟩ | ⟨hf, e, rfl⟩
  · exact ⟨fun _ => rfl, fun hn => absurd hf hn⟩
  · exact ⟨fun hn => absurd hn hf, fun _ => rfl⟩

/-- Settles O9: the offered input is the head of the list, which the step takes off again. -/
theorem hostStepUsesItsInputs : Obligations.HostStepUsesItsInputs := by
  intro s input i hi hw
  refine ⟨rfl, rfl, rfl, ?_⟩
  obtain ⟨t, ht⟩ := exec_next i (s.offer input)
  have hoffer : fetches (s.offer input) (encode i) := hw
  have hstep : step (s.offer input) = .next t.consumeInput := by
    rw [step_of_fetches hoffer, decode_encode i hi, ht]; rfl
  have henv : t.env = (s.offer input).env := exec_frame ht .env (by simp [not_mem_writes])
  refine ⟨t, t.consumeInput, ht, ?_, unchangedExcept_consumeInput t, ?_⟩
  · simp only [hostStep, hstep]; rfl
  · simp [henv]

/-- Settles O58, by the frame of `setFlags` and the range check of a read. -/
theorem flagResetAndReads : Obligations.FlagResetAndReads := by
  intro s a px py
  refine ⟨⟨resetFlags s, rfl, rfl, rfl, unchangedExcept_setFlags s _ _⟩, rfl, rfl, rfl, rfl, rfl,
    fun ha => ?_, fun ha => ?_⟩
  · simp only [HostOp.apply, readMem, memRead_ok _ _ _ ha]
  · simp only [HostOp.apply, readMem, memRead_error _ _ _ ha]
end

section
/-! The invariant (10_state.md R24, R27, R30, R32; 20_memory.md R50; 60_exceptions.md R245): each shape an instruction's
effect can have keeps it, hence every step and every host operation, hence every schedule. -/

namespace Sys2Proof.Machine

section
variable {i : Instr} {s t u : State}

theorem faultPrecise_of_none (h : s.fault = none) : faultPrecise s := by
  simp [faultPrecise, h]

theorem State.Inv.takeFatal (h : s.Inv) {e : Fault} (he : faultPrecise (s.takeFatal e)) : (s.takeFatal e).Inv :=
  ⟨h.mem, h.disp, h.stack, h.returns, h.pc, he, h.lastOp⟩

theorem State.Inv.consumeInput (h : s.Inv) : s.consumeInput.Inv :=
  ⟨h.mem, h.disp, h.stack, h.returns, h.pc, h.fault, h.lastOp⟩

theorem State.Inv.offer (h : s.Inv) (input : StepInput) : (s.offer input).Inv :=
  ⟨h.mem, h.disp, h.stack, h.returns, h.pc, h.fault, h.lastOp⟩

theorem State.Inv.complete (h : s.Inv) (hi : i.wellFormed = true) : (s.complete i).Inv :=
  ⟨h.mem, h.disp, h.stack, h.returns, h.pc, h.fault, fun _ hop => Option.some.inj hop ▸ hi⟩

theorem State.Inv.setMem (h : s.Inv) {m : Memory} (hm : m.wf) : (s.setMem m).Inv :=
  ⟨hm, h.disp, h.stack, h.returns, h.pc, h.fault, h.lastOp⟩

/-- The invariant after a change of PC and stack, where no fault is latched that could name them. -/
theorem State.Inv.setStack_setPc (h : s.Inv) (hf : s.fault = none) {l : List Word} {p : Word} (hl : l.length ≤ 16)
    (hr : ∀ r ∈ l, r.toNat ≤ 0x1000) (hp : p.toNat ≤ 0x10FE) : ((s.setStack l).setPc p).Inv :=
  ⟨h.mem, h.disp, hl, hr, hp, faultPrecise_of_none hf, h.lastOp⟩

theorem State.Inv.setPc (h : s.Inv) (hf : s.fault = none) {p : Word} (hp : p.toNat ≤ 0x10FE) : (s.setPc p).Inv :=
  h.setStack_setPc hf h.stack h.returns hp

/-- What an instruction fetched at PC makes of the state meets the invariant. -/
theorem Effect.keeps_inv (he : Effect i s u) (h : s.Inv) (hf : s.fault = none) (hpc : s.pc.toNat ≤ 0xFFE) : u.Inv := by
  have hadv : s.advance.Inv := h.setPc hf (advance_pc_le hpc)
  obtain ⟨hmem, hdisp, hstack, hreturns, hpc', hfault, hlastOp⟩ := hadv
  cases he with
  | control p _ hp => exact h.setPc hf (hp hpc)
  | stalled _ => exact h
  | registers | index | delayTimer | soundTimer => exact ⟨hmem, hdisp, hstack, hreturns, hpc', hfault, hlastOp⟩
  | stored a bs _ ha =>
    exact ⟨Memory.canonical_writeList _ _ _ _ ha hmem, hdisp, hstack, hreturns, hpc', hfault, hlastOp⟩
  | called nnn _ hl =>
    refine h.setStack_setPc hf ?_ (fun r hr => ?_) (zextAddr_le nnn)
    · have hle : s.stack.length ≤ 16 := h.stack
      simp only [List.length_append, List.length_singleton]
      omega
    · rcases List.mem_append.mp hr with hr | hr
      · exact h.returns r hr
      · rw [List.mem_singleton.mp hr]
        bv_omega
  | returned l p _ hl =>
    have hlen : s.stack.length ≤ 16 := h.stack
    have hret := h.returns
    simp only [hl, List.length_append, List.mem_append, List.mem_singleton] at hlen hret
    refine h.setStack_setPc hf (by omega) (fun r hr => hret r (.inl hr)) ?_
    exact (hret p (.inr rfl)).trans (by decide)
  | cleared _ => exact ⟨hmem, Display.wf_nil, hstack, hreturns, hpc', hfault, hlastOp⟩
  | drawn x y rows b _ _ =>
    exact ⟨hmem, Display.wf_drawSprite _ x y rows hdisp, hstack, hreturns, hpc', hfault, hlastOp⟩

/-- An instruction fetched at PC ends in a state that meets the invariant. -/
theorem Ends.keeps_inv (he : Ends i s t) (h : s.Inv) (hi : i.wellFormed = true) (hf : s.fault = none)
    (hpc : s.pc.toNat ≤ 0xFFE) : t.Inv := by
  rcases he with ⟨u, he, rfl⟩ | ⟨e, rfl, hprecise⟩
  · exact (he.keeps_inv h hf hpc).complete hi
  · exact h.takeFatal hprecise

/-- A step keeps the invariant. -/
theorem step_keeps_inv (h : s.Inv) (ht : step s = .next t) : t.Inv := by
  obtain ⟨hf, ⟨e, he, rfl⟩ | ⟨hi, lo, u, hb, hu, rfl⟩⟩ := step_cases ht
  all_goals refine State.Inv.consumeInput ?_
  · rw [fetchBytes_eq] at he
    split at he
    · cases he
    · cases he
      exact h.takeFatal ⟨rfl, lt_firstOutOfRange _⟩
  · rw [fetchBytes_eq] at hb
    split at hb
    · exact (exec_ends hu).keeps_inv h (decode_wellFormed _) hf (by omega)
    · cases hb

theorem reset_inv : State.reset.Inv :=
  ⟨Memory.canonical_nil _, Display.wf_nil, Nat.zero_le _, fun _ hr => absurd hr List.not_mem_nil, by decide, trivial,
    fun _ hop => nomatch hop⟩

/-- The host's reset meets the invariant from any state (R274). -/
theorem hostReset_inv (s : State) : (hostReset s).Inv :=
  ⟨reset_inv.mem, reset_inv.disp, reset_inv.stack, reset_inv.returns, reset_inv.pc, reset_inv.fault, reset_inv.lastOp⟩

/-- The host's writes keep memory within its bounds (R54). -/
theorem hostWrite_keeps_inv (h : s.Inv) (a : Nat) (bytes : List Byte) : (hostWrite s a bytes).1.Inv := by
  unfold hostWrite
  rw [memWriteBlock_eq]
  split
  case h_2 => exact h
  case h_1 m hm =>
    refine h.setMem ?_
    split_ifs at hm with hfit
    cases hm
    rcases hfit with rfl | hfit
    · exact h.mem
    · exact Memory.canonical_writeList _ _ _ _ hfit h.mem

theorem hostStep_keeps_inv (h : s.Inv) (input : StepInput) : (hostStep input s).1.Inv := by
  unfold hostStep
  split
  case h_1 ht => exact step_keeps_inv (h.offer input) ht
  all_goals exact h

/-- Every host operation keeps the invariant (R36). -/
theorem HostOp.apply_keeps_inv (op : HostOp) (h : s.Inv) : (op.apply s).1.Inv := by
  cases op with
  | step input => exact hostStep_keeps_inv h input
  | tick => exact ⟨h.mem, h.disp, h.stack, h.returns, h.pc, h.fault, h.lastOp⟩
  | resetFlags => exact ⟨h.mem, h.disp, h.stack, h.returns, h.pc, h.fault, h.lastOp⟩
  | reset => exact hostReset_inv s
  | load bytes => exact hostWrite_keeps_inv h _ bytes
  | installFont glyphs => exact hostWrite_keeps_inv h _ glyphs
  | shouldDraw | shouldClear | getPixel | exportDisplay | soundOn | lastOp | fault | readMem => exact h

end

end Sys2Proof.Machine

open Sys2Proof Sys2Proof.Machine

/-- Settles O16: reset lists no byte, no pixel and no return address. -/
theorem resetMeetsTheInvariant : Obligations.ResetMeetsTheInvariant := reset_inv

/-- Settles O17, by the invariant of each shape of `Effect`. -/
theorem everyStepKeepsTheInvariant : Obligations.EveryStepKeepsTheInvariant :=
  fun _ _ h ht => step_keeps_inv h ht

/-- Settles O18, by induction on the schedule. -/
theorem everyScheduleKeepsTheInvariant : Obligations.EveryScheduleKeepsTheInvariant := by
  intro ops
  induction ops with
  | nil => exact fun _ h => h
  | cons op ops ih => exact fun s h => ih _ (op.apply_keeps_inv h)
end

section
/-! The outputs ST, the render flags and `last_op` are read by no step (10_state.md R26, R31, R32): two states that are one
with the outputs blanked out stay so. -/

namespace Sys2Proof.Machine

/-- The fields no step reads. -/
def outputs : List Field := [.st, .drawFlag, .clearFlag, .lastOp]

/-- `s` with other values in its outputs. -/
def State.withOutputs (s : State) (st : Byte) (draw clear : Bool) (op : Option Instr) : State :=
  { s with st := st, drawFlag := draw, clearFlag := clear, lastOp := op }

/-- `s` with its outputs blanked out. -/
def State.hideOutputs (s : State) : State := s.withOutputs 0x00#8 false false none

/-- States equal but for their outputs differ in the output fields alone. -/
theorem unchangedExcept_of_hideOutputs {t u : State} (h : t.hideOutputs = u.hideOutputs) :
    unchangedExcept outputs t u := by
  simp only [State.hideOutputs, State.withOutputs, State.mk.injEq] at h
  intro f hf
  cases f <;> simp_all [Field.same, outputs]

/-- The outcomes differ in the outputs of the next state alone. -/
def SameButOutputs (o o' : Host.Outcome State Fault Refusal) : Prop :=
  ∀ t, o = .next t → ∃ u, o' = .next u ∧ t.hideOutputs = u.hideOutputs

section
variable {i : Instr} {s s' t t' : State}

theorem SameButOutputs.complete (h : t.hideOutputs = t'.hideOutputs) :
    SameButOutputs (.next (t.complete i)) (.next (t'.complete i)) := by
  rintro _ ⟨⟩
  exact ⟨_, rfl, h⟩

theorem SameButOutputs.settle_map {α : Type} {f f' : α → State} (r : Except Fault α)
    (hs : s.hideOutputs = s'.hideOutputs) (hf : ∀ a, (f a).hideOutputs = (f' a).hideOutputs) :
    SameButOutputs (settle s i (r.map f)) (settle s' i (r.map f')) := by
  cases r with
  | ok a => exact .complete (hf a)
  | error e =>
    rintro _ ⟨⟩
    exact ⟨_, rfl, congrArg (State.takeFatal · e) hs⟩

end

section
variable (s : State) (st : Byte) (draw clear : Bool) (op : Option Instr)

theorem hideOutputs_skipIf (c : Bool) :
    (skipIf c s).hideOutputs = (skipIf c (s.withOutputs st draw clear op)).hideOutputs := by
  cases c <;> rfl

/-- No instruction reads the outputs. -/
theorem exec_sameButOutputs (i : Instr) : SameButOutputs (exec i s) (exec i (s.withOutputs st draw clear op)) := by
  cases i
  case ret => exact .settle_map (pop s.pc s.stack) rfl fun _ => rfl
  case call nnn => exact .settle_map (push s.pc s.stack _) rfl fun _ => rfl
  case drw x y n => exact .settle_map (memReadBlock s.pc s.mem _ _) rfl fun _ => rfl
  case ldBVx x => exact .settle_map (memWriteBlock s.pc s.mem _ _) rfl fun _ => rfl
  case ldMemVx x => exact .settle_map (memWriteBlock s.pc s.mem _ _) rfl fun _ => rfl
  case ldVxMem x => exact .settle_map (memReadBlock s.pc s.mem _ _) rfl fun _ => rfl
  case seImm | sneImm | seReg | sneReg | skp | sknp => exact .complete (hideOutputs_skipIf s st draw clear op _)
  case ldVxK x =>
    refine .complete ?_
    by_cases hk : s.keys = 0x0000#16
    · rw [if_pos hk, if_pos (show (s.withOutputs st draw clear op).keys = _ from hk)]; rfl
    · rw [if_neg hk, if_neg (show (s.withOutputs st draw clear op).keys ≠ _ from hk)]; rfl
  all_goals exact .complete rfl

end

end Sys2Proof.Machine

open Sys2Proof Sys2Proof.Machine

/-- Settles O27: a step on the blanked states goes the same way, in the fetch and in the instruction. -/
theorem outputsAreNeverRead : Obligations.OutputsAreNeverRead := by
  intro s t st draw clear op h
  obtain ⟨hf, ⟨e, he, rfl⟩ | ⟨hi, lo, r, hb, hr, rfl⟩⟩ := step_cases h
  · exact ⟨_, step_of_fetch_error (s := s.withOutputs st draw clear op) hf he, unchangedExcept_of_hideOutputs rfl⟩
  · obtain ⟨u, hu, hru⟩ := exec_sameButOutputs s st draw clear op _ r hr
    exact ⟨_, step_of_exec (s := s.withOutputs st draw clear op) hf hb hu,
      unchangedExcept_of_hideOutputs (congrArg State.consumeInput hru)⟩
end

section
/-! Memory and the fetch (20_memory.md R52, R53, R55, R63): a block stored from PC upward is what the next fetch reads,
whether the host placed it there or Fx55 stored it from the instruction before. -/

namespace Sys2Proof.Machine

/-- Where memory is a sorted one with a block of two or more bytes stored from PC upward, the word fetched is the block's
first two bytes (R55). -/
theorem fetches_of_mem_writeList {t : State} {m : Memory} {bs : List Byte} (hm : m.sorted) (hf : t.fault = none)
    (hp : t.pc.toNat + 1 ≤ 0xFFF) (hbs : 1 < bs.length) (hmem : t.mem = m.writeList t.pc.toNat bs) :
    fetches t (joinBytes bs[0] bs[1]) := by
  have hhi : t.mem.read t.pc.toNat = bs[0] := hmem ▸ m.read_writeList_same _ 0 bs hm (by omega)
  have hlo : t.mem.read (t.pc.toNat + 1) = bs[1] := hmem ▸ m.read_writeList_same _ 1 bs hm hbs
  exact ⟨hf, hp, by rw [hhi, hlo]⟩

theorem placeAtPc_of_fits (s : State) (bytes : List Byte) (h : s.pc.toNat + bytes.length ≤ 0x1000) :
    s.placeAtPc bytes = s.setMem (s.mem.writeList s.pc.toNat bytes) := by
  simp only [State.placeAtPc, memWriteBlock_ok _ _ _ _ (.inr h)]

theorem withFetchWord_of_fits (s : State) (nbits w : Nat) (h : s.pc.toNat + 1 ≤ 0xFFF) :
    s.withFetchWord nbits w =
      s.setMem (s.mem.writeList s.pc.toNat [highByte (BitVec.ofNat 16 w), lowByte (BitVec.ofNat 16 w)]) :=
  placeAtPc_of_fits s _ (Nat.succ_le_succ h)

/-- The word that `withFetchWord` places is the one fetched next (R55). -/
theorem fetches_withFetchWord {s : State} (nbits w : Nat) (hm : s.mem.sorted) (hf : s.fault = none)
    (hp : s.pc.toNat + 1 ≤ 0xFFF) : fetches (s.withFetchWord nbits w) (BitVec.ofNat 16 w) := by
  rw [withFetchWord_of_fits s nbits w hp]
  simpa only [List.getElem_cons_zero, List.getElem_cons_succ, joinBytes_bytes] using
    fetches_of_mem_writeList (t := s.setMem (s.mem.writeList s.pc.toNat _))
      (bs := [highByte (BitVec.ofNat 16 w), lowByte (BitVec.ofNat 16 w)]) hm hf hp (Nat.lt_add_one 1) rfl

/-- Fx55 where its block fits in memory (R190). -/
theorem exec_ldMemVx_of_fits (s : State) (x : Nibble) (h : s.i.toNat + x.toNat ≤ 0xFFF) :
    exec (.ldMemVx x) s =
      .next ((s.advance.setMem (s.mem.writeList s.i.toNat (regBlock s x))).complete (.ldMemVx x)) := by
  have hfit : s.i.toNat + (regBlock s x).length ≤ 0x1000 := by rw [regBlock_length]; omega
  simp only [exec, execLdMemVx, baseAddress, memWriteBlock_ok _ _ _ _ (.inr hfit), map_ok, settle_ok]

end Sys2Proof.Machine

open Sys2Proof Sys2Proof.Machine

/-- Settles O10: the two bytes placed are the fetched word, and outside them the block write changes nothing. -/
theorem placedWordRunsNext : Obligations.PlacedWordRunsNext := by
  intro s nbits w hm hf hp
  refine ⟨step_of_fetches (fetches_withFetchWord nbits w hm.1 hf hp), ?_⟩
  rw [withFetchWord_of_fits s nbits w hp]
  refine ⟨unchangedExcept_setMem s _, fun a hhi hlo => Memory.read_writeList_other _ _ _ _ ?_⟩
  simp only [List.length_cons, List.length_nil]
  omega

/-- Settles O13: after Fx55 over PC + 2 memory is the old one with V0 to Vx stored from the new PC upward. -/
theorem storeIsSeenByTheNextFetch : Obligations.StoreIsSeenByTheNextFetch := by
  intro s t x hm hf hx hfit hi h
  rw [exec_ldMemVx_of_fits s x hfit] at h
  obtain rfl := Host.Outcome.next.inj h
  have hlen : 1 < (regBlock s x).length := by rw [regBlock_length]; omega
  have hpc : s.i.toNat = s.advance.pc.toNat := by simp only [advance_pc]; bv_omega
  have hword : joinBytes (s.getV 0x0#4) (s.getV 0x1#4) = joinBytes (regBlock s x)[0] (regBlock s x)[1] := by
    rw [regBlock_getElem, regBlock_getElem]; rfl
  rw [hword]
  refine fetches_of_mem_writeList (m := s.mem) hm.1 ?_ ?_ hlen ?_
  · exact hf
  · simp only [complete_pc, setMem_pc]; omega
  · simp only [complete_pc, setMem_pc, complete_mem, setMem_mem, hpc]

/-- Settles O11: in range, the laws of the byte store; out of range, the range check. -/
theorem memoryReadsBackWhatIsWritten : Obligations.MemoryReadsBackWhatIsWritten := by
  intro pc m a b hm
  refine ⟨fun ha => ⟨m.write a b, memWrite_ok pc m a b ha, ?_, ?_, fun c => m.read_write_other a c b⟩,
    fun ha => ⟨memWrite_error pc m a b ha, memRead_error pc m a ha⟩⟩
  · rw [memRead_ok pc _ a ha, m.read_write_same a b hm.1]
  · exact m.canonical_write _ a b (Nat.lt_succ_of_le ha) hm
end

section
/-! The decoder against the encoder and the opcode table (30_encoding.md R73 to R82): a word is its fields put together,
so encoding what a word decodes to gives the word back, and each mask of a row with operands keeps the fields that select
the row. -/

namespace Sys2Proof

/-! ### A word from its own fields -/

section
variable {w : Word} {op n : Nibble} {kk : Byte}

theorem word_of_op_nnn (hop : (fieldOp w).toNat = op.toNat) : (op ++ fieldNnn w : Word) = w := by
  apply BitVec.eq_of_toNat_eq
  rw [toNat_nnn, ← hop, fieldOp_toNat, fieldNnn_toNat]
  omega

theorem word_of_op_x_kk (hop : (fieldOp w).toNat = op.toNat) (hkk : (fieldKk w).toNat = kk.toNat) :
    (op ++ fieldX w ++ kk : Word) = w := by
  apply BitVec.eq_of_toNat_eq
  rw [toNat_x_kk, ← hop, ← hkk, fieldOp_toNat, fieldX_toNat, fieldKk_toNat]
  omega

theorem word_of_op_x_y_n (hop : (fieldOp w).toNat = op.toNat) (hn : (fieldN w).toNat = n.toNat) :
    (op ++ fieldX w ++ fieldY w ++ n : Word) = w := by
  apply BitVec.eq_of_toNat_eq
  rw [toNat_x_y_n, ← hop, ← hn, fieldOp_toNat, fieldX_toNat, fieldY_toNat, fieldN_toNat]
  omega

end

/-! ### Encoding what was decoded, family by family -/

section
variable (w : Word)

theorem encode_decodeFamily0 (hop : (fieldOp w).toNat = 0) : encode (decodeFamily0 w) = w := by
  have hw : (0x0#4 ++ fieldNnn w : Word) = w := word_of_op_nnn hop
  unfold decodeFamily0
  split
  case h_1 h => rw [← hw, BitVec.eq_of_toNat_eq (y := 0x0E0#12) h]; rfl
  case h_2 h => rw [← hw, BitVec.eq_of_toNat_eq (y := 0x0EE#12) h]; rfl
  case h_3 => rfl

theorem encode_decodeFamily8 (hop : (fieldOp w).toNat = 8) : encode (decodeFamily8 w) = w := by
  unfold decodeFamily8
  split
  case h_10 => rfl
  all_goals exact word_of_op_x_y_n hop ‹_›

/-- `op` is the family whose skip the branch selects (R76). -/
theorem encode_decodeRegSkip {skip : Nibble → Nibble → Instr} {op : Nibble} (hop : (fieldOp w).toNat = op.toNat)
    (hskip : ∀ x y, encode (skip x y) = op ++ x ++ y ++ 0x0#4) : encode (decodeRegSkip skip w) = w := by
  unfold decodeRegSkip
  split
  · rw [hskip]; exact word_of_op_x_y_n hop ‹_›
  · rfl

theorem encode_decodeFamilyE (hop : (fieldOp w).toNat = 14) : encode (decodeFamilyE w) = w := by
  unfold decodeFamilyE
  split
  case h_3 => rfl
  all_goals exact word_of_op_x_kk hop ‹_›

theorem encode_decodeFamilyF (hop : (fieldOp w).toNat = 15) : encode (decodeFamilyF w) = w := by
  unfold decodeFamilyF
  split
  case h_10 => rfl
  all_goals exact word_of_op_x_kk hop ‹_›

/-- Encoding what a word decodes to gives the word back (R82). -/
theorem encode_decode : encode (decode w) = w := by
  have hlt := (fieldOp w).isLt
  unfold decode
  split
  case h_1 h => exact encode_decodeFamily0 w h
  case h_2 h | h_3 h | h_11 h | h_12 h => exact word_of_op_nnn h
  case h_4 h | h_5 h | h_7 h | h_8 h | h_13 h => exact word_of_op_x_kk h rfl
  case h_6 h => exact encode_decodeRegSkip w (op := 0x5#4) h fun _ _ => rfl
  case h_9 h => exact encode_decodeFamily8 w h
  case h_10 h => exact encode_decodeRegSkip w (op := 0x9#4) h fun _ _ => rfl
  case h_14 h => exact word_of_op_x_y_n h rfl
  case h_15 h => exact encode_decodeFamilyE w h
  case h_16 => exact encode_decodeFamilyF w (by simp only [imp_false] at *; omega)

/-! ### The masks of the opcode table -/

/-- The mask of the rows that only the top nibble selects. -/
theorem and_opMask : w &&& 0xF000#16 = fieldOp w ++ 0x000#12 :=
  calc w &&& 0xF000#16
    _ = (fieldOp w ++ fieldNnn w) &&& (BitVec.allOnes 4 ++ 0x000#12) := by rw [word_of_op_nnn rfl]; rfl
    _ = fieldOp w ++ 0x000#12 := by simp only [BitVec.and_append, BitVec.and_allOnes, BitVec.and_zero]

/-- The mask of the rows that `n` selects within a family (R76, R77). -/
theorem and_opNMask : w &&& 0xF00F#16 = fieldOp w ++ 0x0#4 ++ 0x0#4 ++ fieldN w :=
  calc w &&& 0xF00F#16
    _ = (fieldOp w ++ fieldX w ++ fieldY w ++ fieldN w) &&&
        (BitVec.allOnes 4 ++ 0x0#4 ++ 0x0#4 ++ BitVec.allOnes 4) := by
      rw [word_of_op_x_y_n rfl rfl]; rfl
    _ = fieldOp w ++ 0x0#4 ++ 0x0#4 ++ fieldN w := by simp only [BitVec.and_append, BitVec.and_allOnes, BitVec.and_zero]

/-- The mask of the rows that `kk` selects within a family (R78, R79). -/
theorem and_opKkMask : w &&& 0xF0FF#16 = fieldOp w ++ 0x0#4 ++ fieldKk w :=
  calc w &&& 0xF0FF#16
    _ = (fieldOp w ++ fieldX w ++ fieldKk w) &&& (BitVec.allOnes 4 ++ 0x0#4 ++ BitVec.allOnes 8) := by
      rw [word_of_op_x_kk rfl rfl]; rfl
    _ = fieldOp w ++ 0x0#4 ++ fieldKk w := by simp only [BitVec.and_append, BitVec.and_allOnes, BitVec.and_zero]

end

section
variable {w m : Word}

theorem op_of_opMask (h : w &&& 0xF000#16 = m) : (fieldOp w).toNat = m.toNat / 4096 := by
  rw [← h, and_opMask, ← fieldOp_toNat, fieldOp_nnn]

theorem op_n_of_opNMask (h : w &&& 0xF00F#16 = m) :
    (fieldOp w).toNat = m.toNat / 4096 ∧ (fieldN w).toNat = m.toNat % 16 := by
  rw [← h, and_opNMask, ← fieldOp_toNat, ← fieldN_toNat, fieldOp_x_y_n, fieldN_x_y_n]
  exact ⟨rfl, rfl⟩

theorem op_kk_of_opKkMask (h : w &&& 0xF0FF#16 = m) :
    (fieldOp w).toNat = m.toNat / 4096 ∧ (fieldKk w).toNat = m.toNat % 256 := by
  rw [← h, and_opKkMask, ← fieldOp_toNat, ← fieldKk_toNat, fieldOp_x_kk, fieldKk_x_kk]
  exact ⟨rfl, rfl⟩

end

end Sys2Proof

namespace Sys2Proof.Machine

/-- The word of an instruction matches the instruction's row. -/
theorem encode_matches_row (i : Instr) : encode i &&& (matchMask i).2 = (matchMask i).1 := by
  cases i
  case unknown w => exact BitVec.and_zero
  case cls | ret => rfl
  all_goals simp [encode, matchMask, and_opMask, and_opNMask, and_opKkMask]

/-- A row's match and mask fix the digits that the decoder selects on, so a word that matches the row of an instruction
decodes to an instruction of that row. -/
theorem matchMask_decode_of_matches {w : Word} {i : Instr} (hi : ∀ u, i ≠ .unknown u)
    (h : w &&& (matchMask i).2 = (matchMask i).1) : matchMask (decode w) = matchMask i := by
  cases i
  case unknown u => exact absurd rfl (hi u)
  case cls | ret =>
    obtain rfl := (BitVec.and_allOnes (x := w)).symm.trans h
    rfl
  case jp | call | seImm | sneImm | ldImm | addImm | ldI | jpV0 | rnd | drw =>
    have hop := op_of_opMask h
    simp [decode, hop, matchMask]
  case skp | sknp =>
    obtain ⟨hop, hkk⟩ := op_kk_of_opKkMask h
    simp [decode, decodeFamilyE, hop, hkk, matchMask]
  case ldVxDt | ldVxK | ldDtVx | ldStVx | addI | ldFVx | ldBVx | ldMemVx | ldVxMem =>
    obtain ⟨hop, hkk⟩ := op_kk_of_opKkMask h
    simp [decode, decodeFamilyF, hop, hkk, matchMask]
  all_goals
    obtain ⟨hop, hn⟩ := op_n_of_opNMask h
    simp [decode, decodeRegSkip, decodeFamily8, hop, hn, matchMask]

end Sys2Proof.Machine

open Sys2Proof Sys2Proof.Machine

/-- Settles O1, by cases on the instruction; UNKNOWN by R80's table. -/
theorem decodeAfterEncode : Obligations.DecodeAfterEncode := decode_encode

/-- Settles O2, by cases on the family and its selecting digits. -/
theorem encodeAfterDecode : Obligations.EncodeAfterDecode := fun w => ⟨decode_wellFormed w, encode_decode w⟩

/-- Settles O3: outside the table a decoded UNKNOWN would not be well-formed, for it would carry the word itself. -/
theorem unknownIsTheUnknownSpace : Obligations.UnknownIsTheUnknownSpace := by
  refine fun w => ⟨decode_of_unknownSpace w, fun h u hu => ?_⟩
  obtain rfl : u = w := by have hw := encode_decode w; rwa [hu] at hw
  have hwf := decode_wellFormed u
  rw [hu] at hwf
  exact Bool.eq_false_iff.mp h hwf

/-- Settles O4: a word is the encoding of what it decodes to, and a row's digits are those the decoder selects on. -/
theorem decodeAgreesWithOpcodeTable : Obligations.DecodeAgreesWithOpcodeTable := by
  refine fun w => ⟨?_, fun i hi h => (matchMask_decode_of_matches hi h).symm⟩
  have hrow := encode_matches_row (decode w)
  rwa [encode_decode] at hrow
end

section
/-! The execution cycle (40_execution_cycle.md): the fetch and the run of the fetched instruction (R100, R101), a fatal
step and a latched fault (R104, R107), UNKNOWN (R108), the step's inputs (R109), and tick (R112, R113). -/

namespace Sys2Proof.Machine

/-- The word fetched is big-endian (R101). -/
theorem joinBytes_eq_ofNat (hi lo : Byte) : joinBytes hi lo = BitVec.ofNat 16 (hi.toNat * 256 + lo.toNat) := by
  rw [← toNat_joinBytes, BitVec.ofNat_toNat, BitVec.setWidth_eq]

section
variable {i : Instr} {s t u : State} {e : Fault}

theorem fetchBytes_ok (h : s.pc.toNat + 1 ≤ 0xFFF) :
    fetchBytes s = .ok (s.mem.read s.pc.toNat, s.mem.read (s.pc.toNat + 1)) := by
  rw [fetchBytes_eq, if_pos h]

theorem fetchBytes_error (h : 0xFFF < s.pc.toNat + 1) :
    fetchBytes s = .error (.memOob s.pc (firstOutOfRange s.pc.toNat) .fetch) := by
  rw [fetchBytes_eq, if_neg (by omega)]

/-- The error of a fetch names PC and an address out of range (R101, R245). -/
theorem faultPrecise_of_fetch_error (h : fetchBytes s = .error e) : faultPrecise (s.takeFatal e) := by
  rw [fetchBytes_eq] at h
  split at h
  · cases h
  · cases h
    exact ⟨rfl, lt_firstOutOfRange _⟩

/-- A precise error records the PC it was taken at (R240, R245). -/
theorem pc_of_faultPrecise (h : faultPrecise (s.takeFatal e)) : e.pc = s.pc := by
  cases e <;> exact h.1

/-- What a step that raises answers: the state it started from with a precise error latched, the step's input aside
(R104). -/
theorem step_fatal (h : step s = .next t) (ht : t.fault = some e) :
    t = (s.takeFatal e).consumeInput ∧ faultPrecise (s.takeFatal e) := by
  obtain ⟨hs, ⟨e', hfetch, rfl⟩ | ⟨hi, lo, u, -, hu, rfl⟩⟩ := step_cases h
  · cases ht
    exact ⟨rfl, faultPrecise_of_fetch_error hfetch⟩
  · rcases exec_ends hu with ⟨r, hr, rfl⟩ | ⟨e', rfl, hprecise⟩
    · exact absurd (ht.symm.trans (hr.fault_eq.trans hs)) (Option.some_ne_none e)
    · cases ht
      exact ⟨rfl, hprecise⟩

/-- A latched fault is what the step answers (R107). -/
theorem step_of_latched (h : s.fault = some e) : step s = .fault e := by
  simp only [step, h]

/-- Completion, from the frame of the instruction's body. -/
theorem completesWith_of_frame {changed : List Field} {P : State → Prop} (h : exec i s = .next (u.complete i))
    (hu : unchangedExcept changed s u) (hp : P (u.complete i)) : completesWith i s changed P :=
  completesWith_of_next h (hu.mono (List.subset_cons_self _ _)) hp

end

/-! ### The step's inputs (R109) -/

/-- `s` with another `env`. -/
def State.withEnv (s : State) (e : Env) : State := { s with env := e }

theorem unchangedExcept_withEnv (s : State) (e : Env) : unchangedExcept [.env] s (s.withEnv e) :=
  fun f hf => by cases f <;> simp_all [Field.same, State.withEnv]

/-- `e` has the inputs of `s` that the instruction reads: `keys` for SKP, SKNP and LD Vx, K, `rnd` for RND, `key_choice`
for LD Vx, K (R109), and FONT_BASE. -/
structure SameInputs (i : Instr) (s : State) (e : Env) : Prop where
  fontBase : e.fontBase = s.env.fontBase
  keys : (∃ x, i = .skp x ∨ i = .sknp x ∨ i = .ldVxK x) → e.current.keys = s.env.current.keys
  rnd : (∃ x kk, i = .rnd x kk) → e.current.rnd = s.env.current.rnd
  keyChoice : (∃ x, i = .ldVxK x) → e.current.keyChoice = s.env.current.keyChoice

section
variable {i : Instr} {s t u u' : State} {e : Env}

/-- A body that goes the same way under another `env` ends the same way. -/
theorem settle_map_withEnv {α : Type} {f f' : α → State} (r : Except Fault α) (hf : ∀ a, f' a = (f a).withEnv e)
    (h : settle s i (r.map f) = .next t) : settle (s.withEnv e) i (r.map f') = .next (t.withEnv e) := by
  cases r with
  | ok a => cases h; rw [map_ok, settle_ok, hf]; rfl
  | error _ => cases h; rfl

/-- Completion under another `env`, from the bodies' states. -/
theorem next_complete_withEnv (hu : u' = u.withEnv e)
    (h : (.next (u.complete i) : Host.Outcome State Fault Refusal) = .next t) :
    (.next (u'.complete i) : Host.Outcome State Fault Refusal) = .next (t.withEnv e) := by
  cases h; rw [hu]; rfl

theorem skipIf_withEnv (s : State) (e : Env) (c : Bool) : skipIf c (s.withEnv e) = (skipIf c s).withEnv e := by
  cases c <;> rfl

/-- An instruction given the inputs it reads does the same to every field but `env`. -/
theorem exec_withEnv (he : SameInputs i s e) (h : exec i s = .next t) :
    exec i (s.withEnv e) = .next (t.withEnv e) := by
  cases i
  case ret => exact settle_map_withEnv (pop s.pc s.stack) (fun _ => rfl) h
  case call nnn => exact settle_map_withEnv (push s.pc s.stack _) (fun _ => rfl) h
  case drw x y n => exact settle_map_withEnv (memReadBlock s.pc s.mem _ _) (fun _ => rfl) h
  case ldBVx x => exact settle_map_withEnv (memWriteBlock s.pc s.mem _ _) (fun _ => rfl) h
  case ldMemVx x => exact settle_map_withEnv (memWriteBlock s.pc s.mem _ _) (fun _ => rfl) h
  case ldVxMem x => exact settle_map_withEnv (memReadBlock s.pc s.mem _ _) (fun _ => rfl) h
  case seImm | sneImm | seReg | sneReg => exact next_complete_withEnv (skipIf_withEnv s e _) h
  case skp x =>
    have hkeys : (s.withEnv e).keys = s.keys := he.keys ⟨x, .inl rfl⟩
    exact next_complete_withEnv (hkeys ▸ skipIf_withEnv s e _) h
  case sknp x =>
    have hkeys : (s.withEnv e).keys = s.keys := he.keys ⟨x, .inr (.inl rfl)⟩
    exact next_complete_withEnv (hkeys ▸ skipIf_withEnv s e _) h
  case ldVxK x =>
    have hkeys : (s.withEnv e).keys = s.keys := he.keys ⟨x, .inr (.inr rfl)⟩
    have hchoice : (s.withEnv e).keyChoice = s.keyChoice := he.keyChoice ⟨x, rfl⟩
    refine next_complete_withEnv ?_ h
    rw [hkeys, hchoice]
    split <;> rfl
  case rnd x kk =>
    have hrnd : (s.withEnv e).rnd = s.rnd := he.rnd ⟨x, kk, rfl⟩
    exact next_complete_withEnv (hrnd ▸ rfl) h
  case ldFVx x =>
    have hfont : (s.withEnv e).env.fontBase = s.env.fontBase := he.fontBase
    exact next_complete_withEnv (hfont ▸ rfl) h
  all_goals exact next_complete_withEnv rfl h

end

/-! ### Tick (R112, R113) -/

theorem tickTimer_toNat (b : Byte) : (tickTimer b).toNat = b.toNat - 1 := by
  unfold tickTimer
  split
  case isTrue h => rw [h]; rfl
  case isFalse h => bv_omega

theorem unchangedExcept_tick (s : State) : unchangedExcept [.dt, .st] s (tick s) :=
  (unchangedExcept_setDt s _).trans (unchangedExcept_setSt _ _)

end Sys2Proof.Machine

open Sys2Proof Sys2Proof.Machine

/-- Settles O6: the word at PC decodes to the instruction it encodes. -/
theorem stepRunsTheDecodedInstruction : Obligations.StepRunsTheDecodedInstruction := by
  intro s t i hi hw ht
  refine ⟨t.consumeInput, ?_, unchangedExcept_consumeInput t, rfl, rfl, rfl⟩
  rw [step_of_fetches hw, decode_encode i hi, ht]
  rfl

/-- Settles O7: the address reported is the first of PC and PC + 1 that is out of range. -/
theorem fetchChecksBothBytes : Obligations.FetchChecksBothBytes := by
  intro s
  refine ⟨fun h => ?_, fun h => ?_, fun h => ⟨_, _, fetchBytes_ok h, joinBytes_eq_ofNat _ _⟩⟩
  · rw [fetchBytes_error (by omega), firstOutOfRange, Nat.max_eq_left h]
  · rw [fetchBytes_error (by omega), firstOutOfRange, h]
    rfl

/-- Settles O8: the latch is read before the fetch, and the inputs offered do not touch it. -/
theorem latchedFaultStopsEveryStep : Obligations.LatchedFaultStopsEveryStep := by
  refine fun s e h => ⟨step_of_latched h, fun input => ?_⟩
  have hoffer : step (s.offer input) = .fault e := step_of_latched h
  simp only [hostStep, hoffer]

/-- Settles O19: a step that raises takes its error from the state it started in. -/
theorem fatalStepCommitsNothing : Obligations.FatalStepCommitsNothing := by
  intro s t e _ h ht
  obtain ⟨rfl, hprecise⟩ := step_fatal h ht
  exact ⟨(unchangedExcept_takeFatal s e).trans (unchangedExcept_consumeInput _), pc_of_faultPrecise hprecise⟩

/-- Settles O26: under the other `env` the instruction answers the same state with that `env` in it. -/
theorem inputsAreReadOnlyWhereNamed : Obligations.InputsAreReadOnlyWhereNamed :=
  fun _ _ t e hfont hkeys hrnd hchoice h =>
    ⟨t.withEnv e, exec_withEnv ⟨hfont, hkeys, hrnd, hchoice⟩ h, unchangedExcept_withEnv t e⟩

/-- Settles O49: UNKNOWN's body is the default advance. -/
theorem unknownIsANoOp : Obligations.UnknownIsANoOp :=
  fun s _ => completesWith_of_frame rfl (unchangedExcept_advance s) ⟨rfl, rfl⟩

/-- Settles O55, by the next value of each timer and the frame of their updates. -/
theorem tickDecrementsTimers : Obligations.TickDecrementsTimers :=
  fun s => ⟨tick s, rfl, tickTimer_toNat _, tickTimer_toNat _, unchangedExcept_tick s⟩

/-- Settles O56, by induction on the number of ticks, from every state. -/
theorem ticksSettleAtZero : Obligations.TicksSettleAtZero := by
  intro s n
  induction n generalizing s with
  | zero => exact ⟨rfl, rfl, unchangedExcept_refl s _⟩
  | succ n ih =>
    obtain ⟨hdt, hst, hframe⟩ := ih (tick s)
    have hdt' : (tick s).dt.toNat = s.dt.toNat - 1 := tickTimer_toNat _
    have hst' : (tick s).st.toNat = s.st.toNat - 1 := tickTimer_toNat _
    rw [List.replicate_succ]
    refine ⟨hdt.trans (by omega), hst.trans (by omega), ((unchangedExcept_tick s).trans hframe).mono (by decide)⟩
end

section
/-! The display (41_display.md): a canonical display is its pixels, CLS and the read port (R130, R134, R136), and DRW: what
the state after its body shows, pixel by pixel, of the sprite `spriteCovers` describes (R131, R132, R135). -/

namespace Sys2Proof.Machine

/-- Canonical stores that read alike list the same cells in the same order (R50). -/
theorem Memory.canonical_ext {size : Nat} {m m' : Memory} (h : m.canonical size) (h' : m'.canonical size)
    (hr : ∀ a, m.read a = m'.read a) : m = m' := by
  obtain ⟨hs, hc⟩ := h
  obtain ⟨hs', hc'⟩ := h'
  have hmem : ∀ c : Host.Cell, c ∈ m ↔ c ∈ m' := fun (a, b) => by
    rw [m.mem_iff_read hs fun c hm => (hc c hm).2, m'.mem_iff_read hs' fun c hm => (hc' c hm).2, hr a]
  have hnodup : ∀ l : Memory, l.sorted → l.Nodup := fun l hl => List.Nodup.of_map _ (hl.imp Nat.ne_of_lt)
  have hperm := (List.perm_ext_iff_of_nodup (hnodup m hs) (hnodup m' hs')).mpr hmem
  rw [List.pairwise_map] at hs hs'
  exact hperm.eq_of_pairwise (fun _ _ _ _ h1 h2 => absurd h1 (Nat.lt_asymm h2)) hs hs'

/-- Outside 0 to 2047 a canonical display lists nothing (R30). -/
theorem Display.read_of_le {d : Display} (h : Display.wf d) {p : Nat} (hp : 2048 ≤ p) :
    Memory.read d p = unlistedByte := by
  by_contra hne
  have hlisted := (Memory.mem_iff_read d h.1.1 (fun c hc => (h.1.2 c hc).2) p _).mpr ⟨rfl, hne⟩
  exact absurd (h.1.2 _ hlisted).1 (Nat.not_lt_of_le hp)

/-- The index `p` is that of the pixel in column `p % 64` of row `p / 64` (R30). -/
theorem getPixel_of_index (d : Display) {p : Nat} (hp : p < 2048) : getPixel d (p % 64) (p / 64) = Memory.read d p := by
  have hindex : pixelIndex (p % 64) (p / 64) = p := by
    simp only [pixelIndex, Config.dispH, Config.dispW]; omega
  rw [getPixel, hindex]

/-- A canonical display is its 64 by 32 pixels. -/
theorem Display.ext_getPixel {d d' : Display} (h : Display.wf d) (h' : Display.wf d')
    (hpix : ∀ px py, px < 64 → py < 32 → getPixel d px py = getPixel d' px py) : d = d' := by
  refine Memory.canonical_ext h.1 h'.1 fun p => ?_
  rcases Nat.lt_or_ge p 2048 with hp | hp
  · rw [← getPixel_of_index d hp, hpix _ _ (by omega) (by omega), getPixel_of_index d' hp]
  · rw [Display.read_of_le h hp, Display.read_of_le h' hp]

/-- Reading a pixel wraps on both axes (R136). -/
theorem getPixel_mod (d : Display) (px py : Nat) : getPixel d (px % 64) (py % 32) = getPixel d px py := by
  rw [getPixel, (pixelIndex_eq_iff _ _ px py).mpr ⟨Nat.mod_mod _ _, Nat.mod_mod _ _⟩, getPixel]

theorem getElem?_exportDisplay (d : Display) {p : Nat} (hp : p < 2048) :
    (exportDisplay d)[p]? = some (Memory.read d p) := by
  simp [exportDisplay, hp]

theorem flagByte_bit (b : Bool) : flagByte b = 0x00#8 ∨ flagByte b = 0x01#8 := by
  cases b
  · exact .inl rfl
  · exact .inr rfl

/-! ### DRW -/

/-- The sprite's rows: the `n` bytes from I upward (R135; decision D21). -/
def spriteRows (s : State) (n : Nibble) : List Byte := (List.range n.toNat).map fun r => s.mem.read (s.i.toNat + r)

/-- What DRW draws (R132, R135): the display after it and whether a pixel went from on to off. -/
def drawn (s : State) (x y n : Nibble) : Display × Bool :=
  drawSprite s.disp (s.getV x).toNat (s.getV y).toNat (spriteRows s n)

/-- The state DRW completes in, `last_op` aside (R135). -/
def State.draw (s : State) (x y n : Nibble) : State :=
  ((s.advance.setDisp (drawn s x y n).1).setV vf (flagByte (drawn s x y n).2)).setFlags true s.clearFlag

section
variable {s t : State} {x y n : Nibble}

theorem exec_drw_of_fits (h : n = 0x0#4 ∨ s.i.toNat + n.toNat ≤ 0x1000) :
    exec (.drw x y n) s = .next ((s.draw x y n).complete (.drw x y n)) := by
  have hfits : n.toNat = 0 ∨ s.i.toNat + n.toNat ≤ 0x1000 := h.imp_left (congrArg BitVec.toNat)
  simp only [exec, execDrw, baseAddress, memReadBlock_ok _ _ _ _ hfits, map_ok, settle_ok]
  rfl

theorem exec_drw_of_not_fits (hn : n ≠ 0x0#4) (h : 0x1000 < s.i.toNat + n.toNat) :
    exec (.drw x y n) s = .next (s.takeFatal (.memOob s.pc (firstOutOfRange s.i.toNat) .read)) := by
  have hpos : n.toNat ≠ 0 := fun hz => hn (BitVec.eq_of_toNat_eq hz)
  simp only [exec, execDrw, baseAddress, memReadBlock_error _ _ _ _ hpos h, map_error, settle_error]

theorem Effect.of_draw : Effect (.drw x y n) s (s.draw x y n) :=
  .drawn _ _ _ _ rfl fun _ => of_decide_eq_false

theorem draw_getV_other {r : Nibble} (hr : r ≠ vf) : (s.draw x y n).getV r = s.getV r :=
  Effect.of_draw.getV_eq (decide_eq_false hr)

theorem draw_getV_vf : (s.draw x y n).getV vf = flagByte (drawn s x y n).2 := by simp [State.draw]

theorem draw_getV_vf_bit : (s.draw x y n).getV vf = 0x00#8 ∨ (s.draw x y n).getV vf = 0x01#8 := by
  rw [draw_getV_vf]
  exact flagByte_bit _

/-- A sprite has at most 15 rows, so no row wraps onto another. -/
theorem spriteRows_length_le : (spriteRows s n).length ≤ 32 := by
  have := n.isLt
  simp only [spriteRows, List.length_map, List.length_range]
  omega

/-- The rows the drawing reads cover, at any coordinates, what the sprite covers at the wrapped ones. -/
theorem rowsCover_spriteRows_iff (px py : Nat) :
    rowsCover (s.getV x).toNat (s.getV y).toNat (spriteRows s n) px py ↔ spriteCovers s x y n (px % 64) (py % 32) := by
  constructor
  · rintro ⟨r, hr, c, hc, hx, hy, hb⟩
    exact ⟨r, c, by simpa [spriteRows] using hr, columns_lt c hc, hx, hy, by simpa [spriteRows] using hb⟩
  · rintro ⟨r, c, hr, hc, hx, hy, hb⟩
    exact ⟨r, by simpa [spriteRows] using hr, c, List.mem_range (n := 8).mpr hc, hx, hy, by simpa [spriteRows] using hb⟩

theorem spriteCovers.lt {px py : Nat} (h : spriteCovers s x y n px py) : px < 64 ∧ py < 32 := by
  obtain ⟨r, c, -, -, rfl, rfl, -⟩ := h
  exact ⟨Nat.mod_lt _ (by decide), Nat.mod_lt _ (by decide)⟩

theorem rowsCover_spriteRows_iff_of_lt {px py : Nat} (hpx : px < 64) (hpy : py < 32) :
    rowsCover (s.getV x).toNat (s.getV y).toNat (spriteRows s n) px py ↔ spriteCovers s x y n px py := by
  rw [rowsCover_spriteRows_iff, Nat.mod_eq_of_lt hpx, Nat.mod_eq_of_lt hpy]

/-- The sprite is a matter of I, memory and the two coordinate registers alone (R135). -/
theorem spriteCovers_congr (hi : t.i = s.i) (hm : t.mem = s.mem) (hx : t.getV x = s.getV x) (hy : t.getV y = s.getV y) :
    spriteCovers t x y n = spriteCovers s x y n := by
  unfold spriteCovers
  rw [hi, hm, hx, hy]

/-- Drawing a sprite does not move it, unless VF holds a coordinate. -/
theorem spriteCovers_draw_complete (hx : x ≠ vf) (hy : y ≠ vf) (op : Instr) :
    spriteCovers ((s.draw x y n).complete op) x y n = spriteCovers s x y n :=
  spriteCovers_congr rfl rfl (draw_getV_other hx) (draw_getV_other hy)

theorem wf_drawn (h : Display.wf s.disp) : Display.wf (drawn s x y n).1 := Display.wf_drawSprite _ _ _ _ h

/-- Under the sprite's 1 bits a pixel is flipped (R131). -/
theorem getPixel_drawn_of_covers (hs : Memory.sorted s.disp) {px py : Nat} (h : spriteCovers s x y n px py) :
    getPixel (drawn s x y n).1 px py = getPixel s.disp px py ^^^ 0x01#8 :=
  (drawSprite_spec _ _ _ _ hs spriteRows_length_le px py).1 ((rowsCover_spriteRows_iff_of_lt h.lt.1 h.lt.2).mpr h)

/-- Every other pixel stays (R131). -/
theorem getPixel_drawn_of_not_covers (hs : Memory.sorted s.disp) {px py : Nat} (hpx : px < 64) (hpy : py < 32)
    (h : ¬ spriteCovers s x y n px py) : getPixel (drawn s x y n).1 px py = getPixel s.disp px py :=
  (drawSprite_spec _ _ _ _ hs spriteRows_length_le px py).2 (mt (rowsCover_spriteRows_iff_of_lt hpx hpy).mp h)

/-- The collision (R133): a pixel under one of the sprite's 1 bits was on. -/
theorem drawn_collision_iff (hs : Memory.sorted s.disp) :
    (drawn s x y n).2 = true ↔ ∃ px py, spriteCovers s x y n px py ∧ getPixel s.disp px py = 0x01#8 := by
  rw [drawn, drawSprite_collision _ _ _ _ hs spriteRows_length_le]
  constructor
  · rintro ⟨px, py, hc, hon⟩
    exact ⟨px % 64, py % 32, (rowsCover_spriteRows_iff px py).mp hc, (getPixel_mod _ px py).trans hon⟩
  · rintro ⟨px, py, hc, hon⟩
    exact ⟨px, py, (rowsCover_spriteRows_iff_of_lt hc.lt.1 hc.lt.2).mpr hc, hon⟩

theorem draw_getV_vf_eq_one_iff (hs : Memory.sorted s.disp) :
    (s.draw x y n).getV vf = 0x01#8 ↔
      ∃ px py, spriteCovers s x y n px py ∧ getPixel s.disp px py = 0x01#8 := by
  rw [draw_getV_vf, flagByte_eq_one, drawn_collision_iff hs]

/-- A second sprite, the first one again on what it left, gives the display back: each pixel is flipped twice or never
(R131). -/
theorem drawn_drawn (h : Display.wf s.disp) (hd : t.disp = (drawn s x y n).1)
    (hc : spriteCovers t x y n = spriteCovers s x y n) : (drawn t x y n).1 = s.disp := by
  have hwf : Display.wf t.disp := hd ▸ wf_drawn h
  refine Display.ext_getPixel (wf_drawn hwf) h fun px py hpx hpy => ?_
  by_cases hcov : spriteCovers s x y n px py
  · rw [getPixel_drawn_of_covers hwf.1.1 (hc ▸ hcov), hd, getPixel_drawn_of_covers h.1.1 hcov, BitVec.xor_assoc,
      BitVec.xor_self, BitVec.xor_zero]
  · rw [getPixel_drawn_of_not_covers hwf.1.1 hpx hpy (hc ▸ hcov), hd,
      getPixel_drawn_of_not_covers h.1.1 hpx hpy hcov]

end

end Sys2Proof.Machine

open Sys2Proof Sys2Proof.Machine

/-- Settles O52: the sprite's rows are the bytes at I, and drawing them flips the pixels they cover. -/
theorem drawFlipsTheSpritePixels : Obligations.DrawFlipsTheSpritePixels := by
  intro s x y n hwf
  have hs : Memory.sorted s.disp := hwf.1.1
  refine ⟨fun hfits => completesWith_of_frame (exec_drw_of_fits hfits) Effect.of_draw.frame ?_,
    fun hn hout => raises_of_next (exec_drw_of_not_fits hn hout)⟩
  exact ⟨fun px py hpx hpy => ⟨getPixel_drawn_of_covers hs, getPixel_drawn_of_not_covers hs hpx hpy⟩,
    draw_getV_vf_eq_one_iff hs, draw_getV_vf_bit, fun r hr => draw_getV_other hr, rfl, rfl⟩

/-- Settles O53: with Vx and Vy kept, the second sprite is the first, so it meets on every pixel what the first left. -/
theorem drawTwiceRestoresTheDisplay : Obligations.DrawTwiceRestoresTheDisplay := by
  intro s x y n hwf hx hy hfits
  have hsame := spriteCovers_draw_complete (s := s) (n := n) hx hy (.drw x y n)
  refine ⟨_, _, exec_drw_of_fits hfits, exec_drw_of_fits (s := (s.draw x y n).complete (.drw x y n)) hfits,
    drawn_drawn hwf rfl hsame, fun hclear => ⟨?_, ?_⟩⟩
  · have hmiss : ¬ (drawn s x y n).2 = true := by
      rw [drawn_collision_iff hwf.1.1]
      rintro ⟨px, py, -, hon⟩
      exact absurd ((hclear px py).symm.trans hon) (by decide)
    exact draw_getV_vf.trans (congrArg flagByte (Bool.eq_false_iff.mpr hmiss))
  · have hon : ∀ px py, spriteCovers s x y n px py → getPixel (drawn s x y n).1 px py = 0x01#8 := fun px py hc => by
      rw [getPixel_drawn_of_covers hwf.1.1 hc, hclear, BitVec.zero_xor]
    have hsecond := draw_getV_vf_eq_one_iff (s := (s.draw x y n).complete (.drw x y n)) (x := x) (y := y) (n := n)
      (wf_drawn hwf).1.1
    rw [hsame] at hsecond
    exact hsecond.trans ⟨fun ⟨px, py, hc, _⟩ => ⟨px, py, hc⟩, fun ⟨px, py, hc⟩ => ⟨px, py, hc, hon px py hc⟩⟩

/-- Settles O51: on the clear display no index is listed. -/
theorem clearScreen : Obligations.ClearScreen :=
  fun s => ⟨by decide, completesWith_of_frame rfl (Effect.cleared (i := .cls) (s := s) rfl).frame
    ⟨fun _ _ => rfl, rfl, rfl, rfl⟩⟩

/-- Settles O54: a canonical display holds 0s and 1s, and `exportDisplay` reads the indices in order. -/
theorem displayReadPort : Obligations.DisplayReadPort :=
  fun s px py hwf => ⟨⟨_, rfl, rfl, Display.read_bit s.disp hwf _⟩, _, rfl, by simp [exportDisplay],
    fun _ hp => getElem?_exportDisplay s.disp hp⟩
end

section
/-! Control transfer and skips (42_control_flow.md): the jumps' targets (R151, R152), what CALL and RET answer with and
without room or an entry on the stack (R28, R29, R150, R153), and the common skip (R154). -/

namespace Sys2Proof.Machine

/-- The target of Bnnn is the unreduced sum: 0xFFF + 0xFF is far from 2^16 (R152). -/
theorem jpV0_target_toNat (nnn : Addr12) (b : Byte) : (zextAddr nnn + zextByte b).toNat = nnn.toNat + b.toNat := by
  have := nnn.isLt
  have := b.isLt
  rw [BitVec.toNat_add, zextAddr_toNat, zextByte_toNat]
  omega

theorem keyPressed_iff (keys : Word) (k : Byte) :
    keyPressed keys k = true ↔ k.toNat ≤ 15 ∧ keys.getLsbD k.toNat = true := by
  rw [keyPressed, Bool.and_eq_true, decide_eq_true_iff]

/-- The common skip, as one addition (R154). -/
@[simp] theorem skipIf_pc (c : Bool) (s : State) : (skipIf c s).pc = s.pc + if c then 4#16 else 2#16 := by
  cases c with
  | false => rfl
  | true => exact BitVec.add_assoc s.pc 2#16 2#16

section
variable {i : Instr} {s u : State} {P : State → Prop}

/-- Completion, from the shape of the instruction's body: only the fields it writes change (R38). -/
theorem completesWith_of_effect (h : exec i s = .next (u.complete i)) (he : Effect i s u) (hp : P (u.complete i)) :
    completesWith i s (writes i) P :=
  completesWith_of_frame h he.frame hp

/-- Completion of a skip: PC alone changes. -/
theorem completesWith_of_skipIf {c : Bool} (h : exec i s = .next ((skipIf c s).complete i))
    (hw : writes i = [.pc]) (hp : P ((skipIf c s).complete i)) : completesWith i s [.pc] P :=
  hw ▸ completesWith_of_effect h (.of_skipIf c hw) hp

theorem exec_call_of_room (nnn : Addr12) (h : s.stack.length ≠ 16) :
    exec (.call nnn) s =
      .next (((s.setStack (s.stack ++ [s.pc + 2#16])).setPc (zextAddr nnn)).complete (.call nnn)) := by
  simp only [exec, execCall, advance_pc, push_eq, if_neg h, map_ok, settle_ok]

theorem exec_call_of_full (nnn : Addr12) (h : s.stack.length = 16) :
    exec (.call nnn) s = .next (s.takeFatal (.stackOverflow s.pc)) := by
  simp only [exec, execCall, push_eq, if_pos h, map_error, settle_error]

theorem exec_ret_of_concat {l : List Word} {v : Word} (h : s.stack = l ++ [v]) :
    exec .ret s = .next (((s.setStack l).setPc v).complete .ret) := by
  simp only [exec, execRet, h, pop_concat, map_ok, settle_ok]

theorem exec_ret_of_empty (h : s.stack = []) : exec .ret s = .next (s.takeFatal (.stackUnderflow s.pc)) := by
  simp only [exec, execRet, h, pop_nil, map_error, settle_error]

end

end Sys2Proof.Machine

open Sys2Proof Sys2Proof.Machine

/-- Settles O42: at 0xFFF the second byte of the fetch is the one out of range. -/
theorem jumpSetsPc : Obligations.JumpSetsPc := by
  intro s nnn
  refine completesWith_of_frame rfl (unchangedExcept_setPc s (zextAddr nnn)) ⟨zextAddr_toNat nnn, ?_⟩
  rintro rfl
  exact fetchBytes_error (show 0xFFF < (zextAddr 0xFFF#12).toNat + 1 by decide)

/-- Settles O43: the sum does not wrap. -/
theorem jumpWithOffset : Obligations.JumpWithOffset :=
  fun s nnn => completesWith_of_frame rfl (unchangedExcept_setPc s _) (jpV0_target_toNat nnn (s.getV v0))

/-- Settles O44, by what CALL answers with room on the stack and without. -/
theorem callPushesReturnAddress : Obligations.CallPushesReturnAddress := by
  intro s nnn _
  refine ⟨fun hroom => ?_, fun hfull => raises_of_next (exec_call_of_full nnn hfull)⟩
  have hne := Nat.ne_of_lt hroom
  exact completesWith_of_effect (exec_call_of_room nnn hne) (.called nnn rfl hne) ⟨rfl, zextAddr_toNat nnn⟩

/-- Settles O45, by what RET answers on a non-empty stack and on an empty one. -/
theorem returnPopsPc : Obligations.ReturnPopsPc := by
  refine fun s => ⟨fun l v hl => ?_, fun hempty => raises_of_next (exec_ret_of_empty hempty)⟩
  exact completesWith_of_effect (exec_ret_of_concat hl) (.returned l v rfl hl)
    ⟨rfl, rfl, fun hv => ⟨_, fetchBytes_error (Nat.lt_succ_of_le hv)⟩⟩

/-- Settles O46: RET pops what CALL pushed, so together they set PC to the address after the CALL and record the RET. -/
theorem callThenReturnComesBack : Obligations.CallThenReturnComesBack :=
  fun s nnn hroom => ⟨_, _, exec_call_of_room nnn (Nat.ne_of_lt hroom), exec_ret_of_concat rfl, rfl,
    (unchangedExcept_setPc s _).trans (unchangedExcept_complete _ .ret)⟩

/-- Settles O47: each of the four is the common skip on its condition. -/
theorem skipsOnRegisters : Obligations.SkipsOnRegisters := by
  intro s x y kk
  refine ⟨?seImm, ?sneImm, ?seReg, ?sneReg⟩
  all_goals exact completesWith_of_skipIf rfl rfl (by simp)

/-- Settles O48: SKP is the common skip on the key being pressed, SKNP on its not being. -/
theorem skipsOnKeys : Obligations.SkipsOnKeys := by
  intro s x
  simp only [← keyPressed_iff]
  exact ⟨completesWith_of_skipIf rfl rfl ⟨fun hk => by simp [hk], fun hk => by simp [hk]⟩,
    completesWith_of_skipIf rfl rfl ⟨fun hk => by simp [hk], fun hk => by simp [hk]⟩⟩
end

section
/-! The LD family (43_load_store.md): a register write and its frame (R180, R181, R183), the wait for a key (R111, R184),
the index register's values (R182, R187), and the blocks stored and loaded at I, within memory and out of it (R189, R190,
R191). -/

namespace Sys2Proof.Machine

section
variable {i : Instr} {s : State} {P : State → Prop}

/-! ### One register written -/

/-- Completion of an instruction that writes Vx alone: V and PC change. -/
theorem completesWith_of_setV {x : Nibble} {b : Byte} (h : exec i s = .next ((s.advance.setV x b).complete i))
    (hp : P ((s.advance.setV x b).complete i)) : completesWith i s [.pc, .v] P :=
  completesWith_of_frame h ((unchangedExcept_advance s).trans (unchangedExcept_setV _ x b)) hp

/-- The registers and PC after Vx alone was written. -/
theorem advance_setV_complete (s : State) (i : Instr) (x : Nibble) (b : Byte) :
    ((s.advance.setV x b).complete i).getV x = b ∧ regsUnchangedExcept x s ((s.advance.setV x b).complete i) ∧
    ((s.advance.setV x b).complete i).pc = s.pc + 2#16 :=
  ⟨getV_setV_same s.advance x b, fun r hr => getV_setV_other s.advance x r b hr, rfl⟩

/-- Writing a register's own value changes no register (R181). -/
theorem setV_getV_v (s : State) (x : Nibble) : (s.setV x (s.getV x)).v = s.v :=
  Vector.set_getElem_self x.isLt

/-! ### The wait for a key -/

/-- Fx0A stalls with no key pressed: the state it completes in is the one it started from (R111). -/
theorem exec_ldVxK_of_no_key (x : Nibble) (h : s.keys = 0x0000#16) :
    exec (.ldVxK x) s = .next (s.complete (.ldVxK x)) := by
  simp only [exec, execLdVxK, if_pos h, settle_ok]

/-- Fx0A with a key pressed (R184). -/
theorem exec_ldVxK_of_key (x : Nibble) (h : s.keys ≠ 0x0000#16) :
    exec (.ldVxK x) s =
      .next ((s.advance.setV x (zextKey (chosenKey s.keys s.keyChoice))).complete (.ldVxK x)) := by
  simp only [exec, execLdVxK, if_neg h, settle_ok]

theorem zextKey_toNat (k : Nibble) : (zextKey k).toNat = k.toNat :=
  BitVec.toNat_setWidth_of_le (by decide)

/-! ### The index register -/

/-- The glyph address wraps at 2^16 alone (R187). -/
theorem glyphAddress_toNat (fontBase : Word) (b : Byte) :
    (glyphAddress fontBase b).toNat = (fontBase.toNat + 5 * (b.toNat % 16)) % 65536 := by
  rw [glyphAddress, BitVec.toNat_add, BitVec.toNat_ofNat]
  omega

/-- Within a table of glyphs that fits in memory the glyph address does not wrap (R187, R277). -/
theorem glyphAddress_toNat_of_fits {fontBase : Word} (h : fontBase.toNat + 80 ≤ 0x1000) (b : Byte) :
    (glyphAddress fontBase b).toNat = fontBase.toNat + 5 * (b.toNat % 16) := by
  rw [glyphAddress_toNat]
  omega

/-- Fx29 in every state (R187). -/
theorem exec_ldFVx (s : State) (x : Nibble) :
    exec (.ldFVx x) s =
      .next ((s.advance.setI (glyphAddress s.env.fontBase (s.getV x))).complete (.ldFVx x)) := rfl

/-! ### Blocks stored at I -/

/-- A body that stores a block at I completes where the block fits in memory (R189, R190). -/
theorem completesWith_of_store {bs : List Byte}
    (h : exec i s = settle s i ((memWriteBlock s.pc s.mem s.i.toNat bs).map s.advance.setMem))
    (hfit : s.i.toNat + bs.length ≤ 0x1000)
    (hp : P ((s.advance.setMem (s.mem.writeList s.i.toNat bs)).complete i)) : completesWith i s [.pc, .mem] P := by
  rw [memWriteBlock_ok _ _ _ _ (.inr hfit)] at h
  exact completesWith_of_frame h ((unchangedExcept_advance s).trans (unchangedExcept_setMem _ _)) hp

/-- A body that stores a block at I raises at the first address out of range (R58, R244). -/
theorem raises_of_store {bs : List Byte}
    (h : exec i s = settle s i ((memWriteBlock s.pc s.mem s.i.toNat bs).map s.advance.setMem))
    (hbs : bs ≠ []) (hout : 0x1000 < s.i.toNat + bs.length) :
    raises i s (.memOob s.pc (firstOutOfRange s.i.toNat) .write) := by
  rw [memWriteBlock_error _ _ _ _ hbs hout] at h
  exact raises_of_next h

/-- Byte r of the block Fx55 stores is Vr (R190). -/
theorem read_writeList_regBlock (hm : s.mem.sorted) {x r : Nibble} (hr : r.toNat ≤ x.toNat) :
    (s.mem.writeList s.i.toNat (regBlock s x)).read (s.i.toNat + r.toNat) = s.getV r := by
  have hlt : r.toNat < (regBlock s x).length := by rw [regBlock_length]; omega
  rw [Memory.read_writeList_same _ _ _ _ hm hlt, regBlock_getElem]
  rfl

/-- The digits as numbers: each is below 256, since Vx is (R189). -/
theorem bcdDigits_toNat (b : Byte) :
    (bcdDigits b).map BitVec.toNat = [b.toNat / 100, b.toNat / 10 % 10, b.toNat % 10] := by
  have := b.isLt
  simp only [bcdDigits, List.map_cons, List.map_nil, BitVec.toNat_ofNat, List.cons.injEq, and_true]
  omega

/-- Digit k of a block of three stored at `a` reads back (R189). -/
theorem read_writeList_bcdDigits {m : Memory} (hm : m.sorted) (a : Nat) (b : Byte) {k : Nat} (hk : k < 3) :
    ((m.writeList a (bcdDigits b)).read (a + k)).toNat = [b.toNat / 100, b.toNat / 10 % 10, b.toNat % 10][k] := by
  simp only [← bcdDigits_toNat, List.getElem_map]
  exact congrArg BitVec.toNat (m.read_writeList_same a k (bcdDigits b) hm hk)

/-! ### Blocks loaded from I -/

/-- The bytes Fx65 loads: those at I to I + x (R191). -/
def loadedBytes (s : State) (x : Nibble) : List Byte :=
  (List.range (x.toNat + 1)).map fun k => s.mem.read (s.i.toNat + k)

theorem loadedBytes_length (s : State) (x : Nibble) : (loadedBytes s x).length = x.toNat + 1 := by
  simp [loadedBytes]

/-- Fx65 where its block is in memory (R191). -/
theorem exec_ldVxMem_of_fits (x : Nibble) (h : s.i.toNat + x.toNat ≤ 0xFFF) :
    exec (.ldVxMem x) s =
      .next ((s.advance.setRegs (loadRegs s.v 0 (loadedBytes s x))).complete (.ldVxMem x)) := by
  have hfit : s.i.toNat + (x.toNat + 1) ≤ 0x1000 := Nat.succ_le_succ h
  simp only [exec, execLdVxMem, baseAddress, memReadBlock_ok _ _ _ _ (.inr hfit), map_ok, settle_ok, loadedBytes]

/-- Fx65 where its block leaves memory (R104, R244). -/
theorem exec_ldVxMem_of_not_fits (x : Nibble) (h : 0xFFF < s.i.toNat + x.toNat) :
    exec (.ldVxMem x) s = .next (s.takeFatal (.memOob s.pc (firstOutOfRange s.i.toNat) .read)) := by
  have hout : 0x1000 < s.i.toNat + (x.toNat + 1) := Nat.succ_lt_succ h
  simp only [exec, execLdVxMem, baseAddress, memReadBlock_error _ _ _ _ (Nat.succ_ne_zero _) hout, map_error,
    settle_error]

/-- V0 to Vx receive the bytes loaded (R191). -/
theorem getV_loadRegs_loadedBytes (s : State) {x r : Nibble} (hr : r.toNat ≤ x.toNat) :
    (s.setRegs (loadRegs s.v 0 (loadedBytes s x))).getV r = s.mem.read (s.i.toNat + r.toNat) := by
  have hlt : r.toNat < (loadedBytes s x).length := by rw [loadedBytes_length]; omega
  simp only [State.getV, setRegs_v, loadRegs_getElem, Nat.zero_le, Nat.sub_zero, true_and, dif_pos hlt]
  simp only [loadedBytes, List.getElem_map, List.getElem_range]

/-! ### The font in memory -/

/-- The host's write where the bytes fit in memory (R54, R275, R277). -/
theorem hostWrite_of_fits (s : State) (a : Nat) (bytes : List Byte) (h : a + bytes.length ≤ 0x1000) :
    hostWrite s a bytes = (s.setMem (s.mem.writeList a bytes), .ok) := by
  simp only [hostWrite, memWriteBlock_ok _ _ _ _ (.inr h)]

/-- The conventional table: 16 glyphs of five bytes (R188). -/
theorem fontData_length : Config.fontData.length = 80 := rfl

end

end Sys2Proof.Machine

open Sys2Proof Sys2Proof.Machine

/-- Settles O31: the key chosen is pressed, and it is the choice where that is pressed. -/
theorem waitForKey : Obligations.WaitForKey := by
  refine fun s x => ⟨fun hnone => ?_, fun hkey => ?_⟩
  · exact completesWith_of_frame (exec_ldVxK_of_no_key x hnone) (unchangedExcept_refl s _) trivial
  · obtain ⟨hval, hregs, hpc⟩ :=
      advance_setV_complete s (.ldVxK x) x (zextKey (chosenKey s.keys s.keyChoice))
    refine completesWith_of_setV (exec_ldVxK_of_key x hkey) ⟨⟨(chosenKey s.keys s.keyChoice).toNat,
      BitVec.isLt _, chosenKey_pressed _ _ hkey, ?_, fun hchoice => ?_⟩, hregs, hpc⟩
    · rw [hval, zextKey_toNat]
    · rw [chosenKey_of_pressed _ _ hchoice]

/-- Settles O33: Fx33 stores the block of the three digits at I. -/
theorem storeDecimalDigits : Obligations.StoreDecimalDigits := by
  refine fun s x hm => ⟨fun hfit => ?_, fun hout => raises_of_store rfl (List.cons_ne_nil _ _) (Nat.succ_lt_succ hout)⟩
  have hdigit {k : Nat} (hk : k < 3) := read_writeList_bcdDigits hm.1 s.i.toNat (s.getV x) hk
  refine completesWith_of_store (bs := bcdDigits (s.getV x)) rfl (Nat.succ_le_succ hfit)
    ⟨hdigit (k := 0) (by decide), hdigit (k := 1) (by decide), hdigit (k := 2) (by decide),
      fun a ha => Memory.read_writeList_other _ _ _ _ ?_, rfl⟩
  rw [bcdDigits_length]
  omega

/-- Settles O34: Fx55 stores the block of V0 to Vx at I. -/
theorem storeRegisters : Obligations.StoreRegisters := by
  intro s x hm
  have hlen := regBlock_length s x
  refine ⟨fun hfit => completesWith_of_store (bs := regBlock s x) rfl (by omega)
      ⟨fun r hr => read_writeList_regBlock hm.1 hr, fun a ha => Memory.read_writeList_other _ _ _ _ (by omega), rfl⟩,
    fun hout => raises_of_store rfl (List.ne_nil_of_length_pos (by omega)) (by omega)⟩

/-- Settles O35: Fx65 loads V0 to Vx, and the registers above them have no byte in the block. -/
theorem loadRegisters : Obligations.LoadRegisters := by
  refine fun s x => ⟨fun hfit => ?_, fun hout => raises_of_next (exec_ldVxMem_of_not_fits x hout)⟩
  refine completesWith_of_frame (exec_ldVxMem_of_fits x hfit)
    ((unchangedExcept_advance s).trans (unchangedExcept_setRegs _ _))
    ⟨fun r hr => getV_loadRegs_loadedBytes s hr, fun r hr => loadRegs_frame s _ r ?_, rfl⟩
  rw [loadedBytes_length]
  omega

/-- Settles O60: the glyph's bytes are five of the eighty installed, and the address of none of them wraps. -/
theorem fontPointerFindsTheGlyph : Obligations.FontPointerFindsTheGlyph := by
  intro s x hm hfit
  refine ⟨_, _, hostWrite_of_fits s s.env.fontBase.toNat Config.fontData (by rwa [fontData_length]),
    exec_ldFVx _ x, fun row hrow => ?_⟩
  have hk : 5 * ((s.getV x).toNat % 16) + row < Config.fontData.length := by rw [fontData_length]; omega
  simp only [complete_mem, setI_mem, advance_mem, setMem_mem, complete_i, setI_i, setMem_env, getV_setMem]
  rw [glyphAddress_toNat_of_fits hfit, Nat.add_assoc, Memory.read_writeList_same _ _ _ _ hm.1 hk,
    List.getElem?_eq_getElem hk]

/-- Settles O28: each writes Vx alone, the copy with x = y the value it had. -/
theorem loadImmediateAndCopy : Obligations.LoadImmediateAndCopy := by
  intro s x y kk
  obtain ⟨hval, hregs, hpc⟩ := advance_setV_complete s (.ldReg x y) x (s.getV y)
  refine ⟨decode_encode (.ldImm x kk) rfl, decode_encode (.ldReg x y) rfl,
    completesWith_of_setV rfl (advance_setV_complete s (.ldImm x kk) x kk),
    completesWith_of_setV rfl ⟨hval, hregs, hpc, ?_⟩⟩
  rintro rfl
  exact setV_getV_v s x

/-- Settles O29: I receives the zero-extended address. -/
theorem loadIndex : Obligations.LoadIndex :=
  fun _ nnn => ⟨decode_encode (.ldI nnn) rfl, completesWith_of_effect rfl (.index _ rfl) ⟨zextAddr_toNat nnn, rfl⟩⟩

/-- Settles O30: Fx07 writes Vx alone, Fx15 and Fx18 a timer alone. -/
theorem timerTransfers : Obligations.TimerTransfers :=
  fun s x => ⟨completesWith_of_setV rfl (advance_setV_complete s (.ldVxDt x) x s.dt),
    completesWith_of_effect rfl (.delayTimer _ rfl) ⟨rfl, rfl⟩,
    completesWith_of_effect rfl (.soundTimer _ rfl) ⟨rfl, rfl⟩⟩

/-- Settles O32: both write I alone. -/
theorem indexArithmetic : Obligations.IndexArithmetic := by
  refine fun s x => ⟨completesWith_of_effect rfl (.index _ rfl) ⟨glyphAddress_toNat _ _, rfl⟩,
    completesWith_of_effect rfl (.index _ rfl) ⟨?_, rfl⟩⟩
  exact (BitVec.toNat_add s.i (zextByte (s.getV x))).trans (by rw [zextByte_toNat])
end

section
/-! Arithmetic and logic (44_arith_logic.md): the results and flags of addition, subtraction and the shifts as numbers
(R212, R217 to R220), the logic's result bit by bit (R214 to R216), and what a flag instruction leaves in Vx and in
VF (R22, R110). -/

namespace Sys2Proof.Machine

/-! ### Flags and shifts as numbers -/

theorem flagByte_toNat (b : Bool) : (flagByte b).toNat = b.toNat := by
  cases b with
  | false => rfl
  | true => rfl

theorem carry_toNat (a b : Byte) : (carry a b).toNat = if 255 < a.toNat + b.toNat then 1 else 0 :=
  Bool.cond_decide _ 1 0

theorem notBorrow_toNat (a b : Byte) : (notBorrow a b).toNat = if b.toNat ≤ a.toNat then 1 else 0 :=
  Bool.cond_decide _ 1 0

theorem shiftedOutRight_toNat (a : Byte) : (shiftedOutRight a).toNat = a.toNat % 2 := by
  rw [shiftedOutRight, BitVec.getLsbD, Nat.toNat_testBit, pow_zero, Nat.div_one]

theorem shiftedOutLeft_toNat (a : Byte) : (shiftedOutLeft a).toNat = a.toNat / 128 := by
  have := a.isLt
  rw [shiftedOutLeft, BitVec.getLsbD, Nat.toNat_testBit]
  omega

/-- The difference of two bytes, with the 256 that keeps the subtraction above 0 (R217). -/
theorem byte_sub_toNat (a b : Byte) : (a - b).toNat = (256 + a.toNat - b.toNat) % 256 := by
  have := b.isLt
  rw [BitVec.toNat_sub]
  omega

section
variable {i : Instr} {s : State} {x : Nibble} {b : Byte} {f : Bool}

/-! ### One result written, bit by bit -/

/-- An instruction that writes Vx the value it had leaves every register (R214, R215). -/
theorem advance_setV_complete_v (hb : b = s.getV x) : ((s.advance.setV x b).complete i).v = s.v :=
  hb ▸ setV_getV_v s x

/-- Completion of an instruction that writes Vx alone, its result read bit by bit. -/
theorem completesWith_of_setV_bits {bit : Nat → Bool} {P : State → Prop}
    (h : exec i s = .next ((s.advance.setV x b).complete i)) (hbit : ∀ k, k < 8 → b.getLsbD k = bit k)
    (hp : P ((s.advance.setV x b).complete i)) :
    completesWith i s [.pc, .v] fun t =>
      (∀ k, k < 8 → (t.getV x).getLsbD k = bit k) ∧ regsUnchangedExcept x s t ∧ t.pc = s.pc + 2#16 ∧ P t := by
  obtain ⟨hval, hregs, hpc⟩ := advance_setV_complete s i x b
  exact completesWith_of_setV h ⟨hval.symm ▸ hbit, hregs, hpc, hp⟩

/-! ### One result and one flag written -/

/-- The registers and PC after a flag instruction: the flag is written last, so with x = F it is what VF holds (D8). -/
theorem advance_setResultAndFlag_complete (s : State) (i : Instr) (x : Nibble) (b : Byte) (f : Bool) :
    (x ≠ vf → ((s.advance.setResultAndFlag x b f).complete i).getV x = b) ∧
    ((s.advance.setResultAndFlag x b f).complete i).getV vf = flagByte f ∧
    (∀ r, r ≠ x → r ≠ vf → ((s.advance.setResultAndFlag x b f).complete i).getV r = s.getV r) ∧
    ((s.advance.setResultAndFlag x b f).complete i).pc = s.pc + 2#16 :=
  ⟨setResultAndFlag_result s.advance x b f, setResultAndFlag_vf s.advance x b f,
    fun r => setResultAndFlag_other s.advance x r b f, rfl⟩

/-- Completion of a flag instruction, its result and its flag read as numbers: V and PC change (R22). -/
theorem completesWith_of_setResultAndFlag {result flag : Nat}
    (h : exec i s = .next ((s.advance.setResultAndFlag x b f).complete i))
    (hresult : b.toNat = result) (hflag : f.toNat = flag) :
    completesWith i s [.pc, .v] fun t =>
      (x ≠ vf → (t.getV x).toNat = result) ∧ (t.getV vf).toNat = flag ∧
      (∀ r, r ≠ x → r ≠ vf → t.getV r = s.getV r) ∧ t.pc = s.pc + 2#16 := by
  obtain ⟨hx, hvf, hregs, hpc⟩ := advance_setResultAndFlag_complete s i x b f
  have hframe : unchangedExcept [.pc, .v] s (s.advance.setResultAndFlag x b f) :=
    (unchangedExcept_advance s).trans (unchangedExcept_setRegs s.advance _)
  refine completesWith_of_frame h hframe ⟨fun hne => ?_, ?_, hregs, hpc⟩
  · rw [hx hne, hresult]
  · rw [hvf, flagByte_toNat, hflag]

end

end Sys2Proof.Machine

open Sys2Proof Sys2Proof.Machine

/-- Settles O36: the sum of bytes wraps at 256, and Vx alone is written. -/
theorem addImmediateNoFlag : Obligations.AddImmediateNoFlag := by
  intro s x kk
  obtain ⟨hval, hregs, hpc⟩ := advance_setV_complete s (.addImm x kk) x (s.getV x + kk)
  refine ⟨decode_encode (.addImm x kk) rfl, completesWith_of_setV rfl ⟨?_, hregs, hpc⟩⟩
  rw [hval, BitVec.toNat_add]

/-- Settles O37: each writes Vx alone; OR and AND of a register with itself give the value it had. -/
theorem bitwiseLogic : Obligations.BitwiseLogic := by
  refine fun s x y => ⟨decode_encode (.or x y) rfl, decode_encode (.and x y) rfl, decode_encode (.xor x y) rfl,
    completesWith_of_setV_bits rfl (fun _ _ => BitVec.getLsbD_or) ?or,
    completesWith_of_setV_bits rfl (fun _ _ => BitVec.getLsbD_and) ?and,
    completesWith_of_setV_bits rfl (fun _ _ => BitVec.getLsbD_xor) ?xor⟩
  case or => exact fun hxy => advance_setV_complete_v (by rw [← hxy, BitVec.or_self])
  case and => exact fun hxy => advance_setV_complete_v (by rw [← hxy, BitVec.and_self])
  case xor =>
    rintro rfl
    exact (advance_setV_complete s (.xor x x) x _).1.trans BitVec.xor_self

/-- Settles O38: the result is the sum of bytes and the flag its carry. -/
theorem addWithCarry : Obligations.AddWithCarry :=
  fun s x y => completesWith_of_setResultAndFlag rfl (BitVec.toNat_add _ _) (carry_toNat (s.getV x) (s.getV y))

/-- Settles O39: the two differ in which operand is subtracted from which. -/
theorem subtractWithNotBorrow : Obligations.SubtractWithNotBorrow :=
  fun s x y => ⟨completesWith_of_setResultAndFlag rfl (byte_sub_toNat _ _) (notBorrow_toNat (s.getV x) (s.getV y)),
    completesWith_of_setResultAndFlag rfl (byte_sub_toNat _ _) (notBorrow_toNat (s.getV y) (s.getV x))⟩

/-- Settles O40: a right shift divides by 2, a left shift multiplies by 2, and the flag is the bit moved out. -/
theorem shiftByOne : Obligations.ShiftByOne := by
  refine fun s x y => ⟨completesWith_of_setResultAndFlag rfl ?_ (shiftedOutRight_toNat (s.getV x)),
    completesWith_of_setResultAndFlag rfl ?_ (shiftedOutLeft_toNat (s.getV x))⟩
  · rw [BitVec.toNat_ushiftRight, Nat.shiftRight_one]
  · rw [BitVec.toNat_shiftLeft, Nat.shiftLeft_eq, pow_one, Nat.mul_comm]

/-- Settles O41: Vx alone is written, whatever the random byte. -/
theorem randomUnderMask : Obligations.RandomUnderMask := by
  intro s x kk
  obtain ⟨hval, hregs, hpc⟩ := advance_setV_complete s (.rnd x kk) x (s.rnd &&& kk)
  refine completesWith_of_setV rfl ⟨fun k _ => by rw [hval, BitVec.getLsbD_and], ?_, ?_, hregs, hpc⟩
  · rintro rfl
    rw [hval, BitVec.and_zero]
  · rintro rfl
    exact hval.trans BitVec.and_allOnes
end

section
/-! Fatal errors (60_exceptions.md): no abort and no refusal (R241, R247), and the error of a step, which is the fetch's or
the instruction's own (R240, R244). An instruction raises what its stack operation or its block access raises, so the four
operations are held against the rules' conditions first. -/

namespace Sys2Proof.Machine

/-! ### What the operations raise -/

/-- The error a range-checked or stack operation answers, if any. -/
def raised {α : Type} : Except Fault α → Option Fault
  | .ok _ => none
  | .error e => some e

/-- The least offending address of `n` accesses from I upward is the first one out of range (R51, R244). -/
theorem outOfRange_eq (s : State) (n : Nat) (kind : AccessKind) :
    outOfRange s n kind =
      if n = 0 ∨ s.i.toNat + n ≤ 0x1000 then none
      else some (.memOob s.pc (firstOutOfRange s.i.toNat) kind) := by
  unfold outOfRange
  split
  case isTrue hfit =>
    have hnone : (List.range n).find? (fun k => decide (0xFFF < s.i.toNat + k)) = none := by
      simp only [List.find?_range_eq_none, Bool.not_eq_true', decide_eq_false_iff_not]
      intro k hk
      omega
    rw [hnone, Option.map_none]
  case isFalse hout =>
    have hfirst : (List.range n).find? (fun k => decide (0xFFF < s.i.toNat + k)) = some (0x1000 - s.i.toNat) := by
      simp only [List.find?_range_eq_some, List.mem_range, Bool.not_eq_true', decide_eq_true_eq, decide_eq_false_iff_not]
      refine ⟨?_, ?_, fun k hk => ?_⟩ <;> omega
    have haddr : s.i.toNat + (0x1000 - s.i.toNat) = firstOutOfRange s.i.toNat := by unfold firstOutOfRange; omega
    rw [hfirst, Option.map_some, haddr]

theorem raised_memReadBlock (s : State) (n : Nat) :
    raised (memReadBlock s.pc s.mem s.i.toNat n) = outOfRange s n .read := by
  rw [memReadBlock_eq, outOfRange_eq]
  split <;> rfl

theorem raised_memWriteBlock (s : State) (bs : List Byte) :
    raised (memWriteBlock s.pc s.mem s.i.toNat bs) = outOfRange s bs.length .write := by
  simp only [memWriteBlock_eq, outOfRange_eq, List.length_eq_zero_iff]
  split <;> rfl

/-- Pushing raises on a full stack alone (R28). -/
theorem raised_push (pc : Word) (l : List Word) (v : Word) :
    raised (push pc l v) = if l.length = Config.stackDepth then some (.stackOverflow pc) else none := by
  unfold push
  split <;> rfl

/-- Popping raises on an empty stack alone (R29). -/
theorem raised_pop (pc : Word) (l : List Word) :
    raised (pop pc l) = if l = [] then some (.stackUnderflow pc) else none := by
  rcases pop_cases pc l with ⟨rfl, hp⟩ | ⟨r, v, rfl, hp⟩
  · rw [hp, if_pos rfl]; rfl
  · rw [hp, if_neg (List.concat_ne_nil v r)]; rfl

/-! ### What an instruction latches -/

section
variable {i : Instr} {s t u : State}

theorem fault_of_settle_ok (hs : s.fault = none) (h : settle s i (.ok u) = .next t) (hu : u.fault = s.fault) :
    t.fault = none := by
  cases h; exact hu.trans hs

/-- A body that goes on from an operation latches what the operation raises. -/
theorem fault_of_settle_map {α : Type} {r : Except Fault α} {f : α → State} (hs : s.fault = none)
    (h : settle s i (r.map f) = .next t) (hf : ∀ a, (f a).fault = s.fault) : t.fault = raised r := by
  cases r with
  | ok a => exact fault_of_settle_ok hs h (hf a)
  | error e => cases h; rfl

@[simp] theorem skipIf_fault (c : Bool) (s : State) : (skipIf c s).fault = s.fault := by
  cases c <;> rfl

/-- An instruction latches its own condition's error, and nothing where it has none (R240, R244). -/
theorem fault_of_exec (hs : s.fault = none) (h : exec i s = .next t) : t.fault = raisedBy i s := by
  cases i
  case ret => exact (fault_of_settle_map hs h fun _ => rfl).trans (raised_pop _ _)
  case call nnn => exact (fault_of_settle_map hs h fun _ => rfl).trans (raised_push _ _ _)
  case drw x y n => exact (fault_of_settle_map hs h fun _ => rfl).trans (raised_memReadBlock s _)
  case ldBVx x => exact (fault_of_settle_map hs h fun _ => rfl).trans (raised_memWriteBlock s _)
  case ldMemVx x =>
    have hblock := raised_memWriteBlock s (regBlock s x)
    rw [regBlock_length] at hblock
    exact (fault_of_settle_map hs h fun _ => rfl).trans hblock
  case ldVxMem x => exact (fault_of_settle_map hs h fun _ => rfl).trans (raised_memReadBlock s _)
  case seImm | sneImm | seReg | sneReg | skp | sknp => exact fault_of_settle_ok hs h (skipIf_fault _ s)
  case ldVxK x =>
    refine fault_of_settle_ok hs h ?_
    split <;> rfl
  -- The rest complete in every state, with bodies that only update fields other than the latch.
  all_goals exact fault_of_settle_ok hs h rfl

end

/-! ### What a step latches -/

section
variable {s t : State}

/-- The fetch's error comes before any other (R244). -/
theorem expectedFault_of_fetch_error {e : Fault} (h : fetchBytes s = .error e) : expectedFault s = some e := by
  unfold fetchBytes at h
  unfold expectedFault
  split_ifs at h ⊢ <;> cases h <;> rfl

theorem expectedFault_of_fetch_ok {hi lo : Byte} (h : fetchBytes s = .ok (hi, lo)) :
    expectedFault s = raisedBy (decode (joinBytes hi lo)) s := by
  unfold fetchBytes at h
  unfold expectedFault
  split_ifs at h ⊢
  cases h
  rfl

/-- A step answers a next state exactly when no fault is latched (R107, R241, R247). -/
theorem step_next_iff : (∃ t, step s = .next t) ↔ s.fault = none := by
  refine ⟨fun ⟨_, h⟩ => (step_cases h).1, fun hs => ?_⟩
  cases hfetch : fetchBytes s with
  | error e => exact ⟨_, step_of_fetch_error hs hfetch⟩
  | ok bytes =>
    obtain ⟨u, hu⟩ := exec_next (decode (joinBytes bytes.1 bytes.2)) s
    exact ⟨_, step_of_exec hs hfetch hu⟩

theorem fault_of_step (h : step s = .next t) : t.fault = expectedFault s := by
  obtain ⟨hs, ⟨e, hfetch, rfl⟩ | ⟨hi, lo, u, hfetch, hu, rfl⟩⟩ := step_cases h
  · exact (expectedFault_of_fetch_error hfetch).symm
  · exact (fault_of_exec hs hu).trans (expectedFault_of_fetch_ok hfetch).symm

end

theorem soundOn_iff (s : State) : soundOn s = true ↔ s.st.toNat ≠ 0 :=
  decide_eq_true_iff.trans BitVec.toNat_ne_iff_ne.symm

end Sys2Proof.Machine

open Sys2Proof Sys2Proof.Machine

/-- Settles O20: the fetch's error is taken first, then the instruction's own. -/
theorem stepRaisesExactlyTheExpectedFault : Obligations.StepRaisesExactlyTheExpectedFault := by
  intro s hs
  obtain ⟨t, ht⟩ := step_next_iff.mpr hs
  exact ⟨t, ht, fault_of_step ht⟩

/-- Settles O21: every instruction settles a body, and a step answers the latch before anything else. -/
theorem everyInstructionAnswersANextState : Obligations.EveryInstructionAnswersANextState :=
  ⟨exec_next, fun _ => step_next_iff⟩

/-- Settles O57: a byte is 0 exactly when its value is. -/
theorem soundIsOnWhileTimerRuns : Obligations.SoundIsOnWhileTimerRuns :=
  fun s => ⟨soundOn s, rfl, soundOn_iff s⟩
end

section
/-! Reset, load and the end of a run (70_reset_and_hazards.md): a jump to the address it stands at leaves the core where it
was (R281), the host's write is all or nothing (R275), and memory after reset (R270, R272). -/

namespace Sys2Proof.Machine

section
variable {s : State} {nnn : Addr12}

/-- Jumping to where PC stands: the jump's body is no change at all, so only the record is written (R151, R281). -/
theorem exec_jp_to_pc (h : zextAddr nnn = s.pc) : exec (.jp nnn) s = .next (s.complete (.jp nnn)) := by
  have hstay : s.setPc (zextAddr nnn) = s := by rw [h]; rfl
  change Host.Outcome.next ((s.setPc (zextAddr nnn)).complete (.jp nnn)) = _
  rw [hstay]

/-- The step at a self-loop records the jump and takes its input (R100, R281). -/
theorem step_of_selfLoop (hw : fetches s (encode (.jp nnn))) (h : zextAddr nnn = s.pc) :
    step s = .next (s.complete (.jp nnn)).consumeInput := by
  rw [step_of_fetches hw, decode_encode (.jp nnn) rfl, exec_jp_to_pc h]
  rfl

/-- Neither the record nor the inputs decide what is fetched (R101). -/
theorem fetches_complete_consumeInput {w : Word} (op : Instr) (hw : fetches s w) :
    fetches (s.complete op).consumeInput w := by
  obtain ⟨hfault, hpc, hword⟩ := hw
  exact ⟨hfault, hpc, hword⟩

end

/-- The host's write where the bytes do not fit in memory: refused whole, with the first address out of range (R275:
decision D27). -/
theorem hostWrite_of_not_fits (s : State) (a : Nat) (bytes : List Byte) (hne : bytes ≠ [])
    (h : 0x1000 < a + bytes.length) :
    hostWrite s a bytes = (s, .fatal (.memOob s.pc (firstOutOfRange a) .write)) := by
  simp only [hostWrite, memWriteBlock_error _ _ _ _ hne h]

/-- Every address of memory reads 0 after the host's reset (R64, R272). -/
theorem read_hostReset_mem (s : State) (a : Nat) : (hostReset s).mem.read a = 0x00#8 := Memory.read_nil a

end Sys2Proof.Machine

open Sys2Proof Sys2Proof.Machine

/-- Settles O50: the jump sets PC to the value it has, so the word it was fetched from is fetched again. -/
theorem selfLoopStays : Obligations.SelfLoopStays := by
  rintro s ⟨nnn, hw, htarget⟩
  exact ⟨_, nnn, step_of_selfLoop hw htarget, rfl, htarget,
    (unchangedExcept_complete s _).trans (unchangedExcept_consumeInput _),
    nnn, fetches_complete_consumeInput _ hw, htarget⟩

/-- Settles O59: from 0x200 exactly 3584 bytes are left, and the first address past them is 0x1000. -/
theorem loadCopiesTheProgram : Obligations.LoadCopiesTheProgram := by
  refine fun s bytes hm => ⟨fun hfit => ?_, fun hlong => ?_⟩
  · exact ⟨_, hostWrite_of_fits s Config.loadAddr bytes (Nat.add_le_add_left hfit _), unchangedExcept_setMem s _,
      fun k hk => Memory.read_writeList_same _ _ k bytes hm.1 hk,
      fun a ha => Memory.read_writeList_other _ _ a bytes ha⟩
  · exact hostWrite_of_not_fits s Config.loadAddr bytes (List.ne_nil_of_length_pos (Nat.zero_lt_of_lt hlong))
      (Nat.add_lt_add_left hlong _)

/-- Settles O14: in range a read answers the byte in memory, which reset made 0. -/
theorem resetSetsPcAndZeroesMemory : Obligations.ResetSetsPcAndZeroesMemory := by
  refine ⟨rfl, fun s => ⟨rfl, fun a ha => ?_⟩⟩
  rw [memRead_ok _ _ _ ha, read_hostReset_mem]
end

section
/-! Memory's canonical form (20_memory.md R50), words written out from the patterns of 30_encoding.md, and the fields the
host's reset clears (70_reset_and_hazards.md R271, R273). -/

namespace Sys2Proof.Machine

section
variable (s : State)

/-- Every register reads 0 after the host's reset (R271: decision D18). -/
theorem getV_hostReset (r : Nibble) : (hostReset s).getV r = 0x00#8 := Vector.getElem_replicate r.isLt

/-- Every pixel is off after the host's reset (R273). -/
theorem getPixel_hostReset_disp (px py : Nat) : getPixel (hostReset s).disp px py = 0x00#8 := Memory.read_nil _

end

end Sys2Proof.Machine

open Sys2Proof Sys2Proof.Machine

/-- Settles O12: memory is one of the canonical stores, and those list exactly the cells that their reads give. -/
theorem equalReadsAreEqualMemories : Obligations.EqualReadsAreEqualMemories :=
  fun _ _ h h' hr => Memory.canonical_ext h h' hr

/-- Settles O5: each word is the encoding of the instruction it stands for, and the last two are in R80's table. -/
theorem sampleWordsDecode : Obligations.SampleWordsDecode :=
  ⟨decode_encode .cls rfl, decode_encode (.jp 0xABC#12) rfl, decode_encode (.seImm 0x3#4 0x2A#8) rfl,
    decode_encode (.addReg 0x1#4 0x2#4) rfl, decode_encode (.shl 0x1#4 0x2#4) rfl,
    decode_encode (.drw 0x0#4 0x1#4 0xF#4) rfl, decode_encode (.skp 0x5#4) rfl, decode_encode (.ldBVx 0x7#4) rfl,
    decode_of_unknownSpace 0x5121#16 rfl, decode_of_unknownSpace 0xFFFF#16 rfl⟩

/-- Settles O15: reset copies nothing of the state it starts from but `env`, so a fault latched there is gone too. -/
theorem resetClearsEveryField : Obligations.ResetClearsEveryField :=
  fun s => ⟨getV_hostReset s, rfl, rfl, rfl, rfl, rfl, rfl, rfl, rfl, getPixel_hostReset_disp s, rfl⟩
end
